-- ==== Sys2Proof/Word.lean ====
section
/-!
DEFINITION. The machine's value types. Every value is an unsigned integer (R11); the widths are those of R9.
-/

namespace Sys2Proof

/-- An 8-bit value: a register, a memory byte, an immediate `NN`, a timer. -/
abbrev Byte := BitVec 8

/-- A 16-bit value: `pc`, `I`, a stack entry, an instruction word. -/
abbrev Word := BitVec 16

/-- A 4-bit value: the immediate `N`, or four bits the dispatcher does not examine (R98). -/
abbrev Nibble := BitVec 4

/-- The 12-bit address immediate `NNN` (R91), or the twelve unread bits of a no-op word (R97). -/
abbrev Addr12 := BitVec 12

/-- The number of a general register, V0..VF (R21). -/
abbrev Reg := Fin 16

/-- The number of a key, 0x0..0xF (R33). -/
abbrev Key := Fin 16

/-- The flag register VF is `V[15]` (R21, R22). -/
abbrev Reg.VF : Reg := 15

end Sys2Proof
end

