-- ==== Sys2Proof/Syntax.lean ====
section
/-!
DEFINITION. The instructions: one constructor per row of spec/opcode_table.json (R96 and the four fallback rows of
R97). The docstring of each gives the row's mnemonic. Bits the dispatcher never examines (R98) and the unread bits of
a no-op word (R97) are kept, so that no bit of a word is lost by decoding (log 23).
-/

namespace Sys2Proof

inductive Instr where
  /-- 00E0, clear display; `w[11:8]` is ignored (R98, R149). -/
  | cls (ign : Nibble)
  /-- 00EE, return from subroutine; `w[11:8]` is ignored (R98, R141). -/
  | ret (ign : Nibble)
  /-- 1NNN, jump (R142). -/
  | jp (nnn : Addr12)
  /-- 2NNN, call subroutine (R143). -/
  | call (nnn : Addr12)
  /-- 3XNN, skip if Vx = NN (R144). -/
  | seImm (x : Reg) (nn : Byte)
  /-- 4XNN, skip if Vx != NN (R145). -/
  | sneImm (x : Reg) (nn : Byte)
  /-- 5XY0, skip if Vx = Vy; `w[3:0]` is ignored (R98, R146). -/
  | seReg (x y : Reg) (ign : Nibble)
  /-- 6XNN, set Vx = NN (R160). -/
  | ldImm (x : Reg) (nn : Byte)
  /-- 7XNN, add NN to Vx (R161). -/
  | addImm (x : Reg) (nn : Byte)
  /-- 8XY0, set Vx = Vy (R171). -/
  | ldReg (x y : Reg)
  /-- 8XY1, OR (R172). -/
  | orReg (x y : Reg)
  /-- 8XY2, AND (R173). -/
  | andReg (x y : Reg)
  /-- 8XY3, XOR (R174). -/
  | xorReg (x y : Reg)
  /-- 8XY4, add with carry flag (R175). -/
  | addReg (x y : Reg)
  /-- 8XY5, subtract with no-borrow flag (R176). -/
  | sub (x y : Reg)
  /-- 8XY6, shift right; `Y` is not read (R177). -/
  | shr (x y : Reg)
  /-- 8XY7, reverse subtract (R178). -/
  | subn (x y : Reg)
  /-- 8XYE, shift left; `Y` is not read (R179). -/
  | shl (x y : Reg)
  /-- 9XY0, skip if Vx != Vy; `w[3:0]` is ignored (R98, R147). -/
  | sneReg (x y : Reg) (ign : Nibble)
  /-- ANNN, set I = NNN (R162). -/
  | ldI (nnn : Addr12)
  /-- BNNN, jump to V0 + NNN (R148). -/
  | jpV0 (nnn : Addr12)
  /-- CXNN, random AND NN (R180). -/
  | rnd (x : Reg) (nn : Byte)
  /-- DXYN, draw sprite (R190). -/
  | drw (x y : Reg) (n : Nibble)
  /-- EX9E, skip if key Vx held (R201). -/
  | skp (x : Reg)
  /-- EXA1, skip if key Vx not held (R202). -/
  | sknp (x : Reg)
  /-- FX07, set Vx = delay timer (R210). -/
  | ldRegDt (x : Reg)
  /-- FX0A, wait for key (R211). -/
  | ldRegKey (x : Reg)
  /-- FX15, set delay timer = Vx (R212). -/
  | ldDt (x : Reg)
  /-- FX18, set sound timer = Vx (R213). -/
  | ldSt (x : Reg)
  /-- FX1E, add Vx to I (R214). -/
  | addI (x : Reg)
  /-- FX29, set I to glyph of Vx (R215). -/
  | ldFont (x : Reg)
  /-- FX33, store BCD of Vx (R216). -/
  | ldBcd (x : Reg)
  /-- FX55, store V0..Vx (R217). -/
  | storeRegs (x : Reg)
  /-- FX65, load V0..Vx (R218). -/
  | loadRegs (x : Reg)
  /-- NOP.0, no-op of family 0; `rest` is `w[11:0]` (R97, R126). -/
  | nop0 (rest : Addr12)
  /-- NOP.8, no-op of family 8; `rest` is `w[11:0]` (R97, R126). -/
  | nop8 (rest : Addr12)
  /-- NOP.E, no-op of family E; `rest` is `w[11:0]` (R97, R126). -/
  | nopE (rest : Addr12)
  /-- NOP.F, no-op of family F; `rest` is `w[11:0]` (R97, R126). -/
  | nopF (rest : Addr12)
deriving DecidableEq, Repr

end Sys2Proof
end

