-- ==== Sys2Proof/WellFormed.lean ====
section
/-!
DEFINITION. Which terms of `Instr` are instructions. Operand widths are carried by the types; what remains to check is
that a no-op's word is one of R97, that is, that its key is none its family recognises.
-/

namespace Sys2Proof

/-- The keys `w[7:0]` the system family recognises (R95). -/
def systemKeys : List Byte := [0xE0, 0xEE]

/-- The keys `w[3:0]` the arithmetic family recognises (R95). -/
def arithmeticKeys : List Nibble := [0, 1, 2, 3, 4, 5, 6, 7, 0xE]

/-- The keys `w[7:0]` the keypad family recognises (R95). -/
def keypadKeys : List Byte := [0x9E, 0xA1]

/-- The keys `w[7:0]` the timers/memory family recognises (R95). -/
def timerMemoryKeys : List Byte := [0x07, 0x0A, 0x15, 0x18, 0x1E, 0x29, 0x33, 0x55, 0x65]

/-- The key byte `w[7:0]` of a word's low twelve bits (R91). -/
def keyByte (rest : Addr12) : Byte := rest.extractLsb' 0 8

/-- The key nibble `w[3:0]` of a word's low twelve bits (R91). -/
def keyNibble (rest : Addr12) : Nibble := rest.extractLsb' 0 4

/-- A well-formed instruction: every no-op's key is unrecognised (R97); the other rows admit every operand. -/
def Instr.wf : Instr → Bool
  | .cls _ | .ret _ | .jp _ | .call _ | .seImm _ _ | .sneImm _ _ | .seReg _ _ _ | .ldImm _ _ | .addImm _ _ => true
  | .ldReg _ _ | .orReg _ _ | .andReg _ _ | .xorReg _ _ | .addReg _ _ | .sub _ _ | .shr _ _ | .subn _ _ => true
  | .shl _ _ | .sneReg _ _ _ | .ldI _ | .jpV0 _ | .rnd _ _ | .drw _ _ _ | .skp _ | .sknp _ => true
  | .ldRegDt _ | .ldRegKey _ | .ldDt _ | .ldSt _ | .addI _ | .ldFont _ | .ldBcd _ | .storeRegs _ | .loadRegs _ => true
  | .nop0 rest => !systemKeys.contains (keyByte rest)
  | .nop8 rest => !arithmeticKeys.contains (keyNibble rest)
  | .nopE rest => !keypadKeys.contains (keyByte rest)
  | .nopF rest => !timerMemoryKeys.contains (keyByte rest)

end Sys2Proof
end

