-- ==== Sys2Proof/Decode.lean ====
section
/-!
DEFINITION. Decoding: the fields of a word (R91), the two-level dispatch (R94, R95, R100), bytes to a word big-endian
(R60), and the encoder written from the table of R96. Decoding is total on words (R99, R122); from bytes it refuses, by
name, only when fewer than two bytes are left.
-/

namespace Sys2Proof

/-! ### Fields of a word (R91) -/

/-- `op = w[15:12]`. -/
def opField (w : Word) : Nibble := w.extractLsb' 12 4

/-- `X = w[11:8]`, as a register number. -/
def xField (w : Word) : Reg := (w.extractLsb' 8 4).toFin

/-- `w[11:8]` where it is no operand (R98). -/
def ignHighField (w : Word) : Nibble := w.extractLsb' 8 4

/-- `Y = w[7:4]`, as a register number. -/
def yField (w : Word) : Reg := (w.extractLsb' 4 4).toFin

/-- `N = w[3:0]`. -/
def nField (w : Word) : Nibble := w.extractLsb' 0 4

/-- `NN = w[7:0]`. -/
def nnField (w : Word) : Byte := w.extractLsb' 0 8

/-- `NNN = w[11:0]`. -/
def nnnField (w : Word) : Addr12 := w.extractLsb' 0 12

/-! ### Dispatch (R94, R95, R100) -/

/-- The system family, op = 0, keyed by the low byte (R95). -/
def decodeSystem (w : Word) : Instr :=
  match nnField w with
  | 0xE0#8 => .cls (ignHighField w)
  | 0xEE#8 => .ret (ignHighField w)
  | _ => .nop0 (nnnField w)

/-- The arithmetic family, op = 8, keyed by the low nibble (R95). -/
def decodeArithmetic (w : Word) : Instr :=
  match nField w with
  | 0x0#4 => .ldReg (xField w) (yField w)
  | 0x1#4 => .orReg (xField w) (yField w)
  | 0x2#4 => .andReg (xField w) (yField w)
  | 0x3#4 => .xorReg (xField w) (yField w)
  | 0x4#4 => .addReg (xField w) (yField w)
  | 0x5#4 => .sub (xField w) (yField w)
  | 0x6#4 => .shr (xField w) (yField w)
  | 0x7#4 => .subn (xField w) (yField w)
  | 0xE#4 => .shl (xField w) (yField w)
  | _ => .nop8 (nnnField w)

/-- The keypad family, op = 0xE, keyed by the low byte (R95). -/
def decodeKeypad (w : Word) : Instr :=
  match nnField w with
  | 0x9E#8 => .skp (xField w)
  | 0xA1#8 => .sknp (xField w)
  | _ => .nopE (nnnField w)

/-- The timers/memory family, op = 0xF, keyed by the low byte (R95). -/
def decodeTimersMemory (w : Word) : Instr :=
  match nnField w with
  | 0x07#8 => .ldRegDt (xField w)
  | 0x0A#8 => .ldRegKey (xField w)
  | 0x15#8 => .ldDt (xField w)
  | 0x18#8 => .ldSt (xField w)
  | 0x1E#8 => .addI (xField w)
  | 0x29#8 => .ldFont (xField w)
  | 0x33#8 => .ldBcd (xField w)
  | 0x55#8 => .storeRegs (xField w)
  | 0x65#8 => .loadRegs (xField w)
  | _ => .nopF (nnnField w)

/-- The instruction a word stands for (R100): the primary table indexed by the leading nibble (R94). -/
def decode (w : Word) : Instr :=
  match opField w with
  | 0x0#4 => decodeSystem w
  | 0x1#4 => .jp (nnnField w)
  | 0x2#4 => .call (nnnField w)
  | 0x3#4 => .seImm (xField w) (nnField w)
  | 0x4#4 => .sneImm (xField w) (nnField w)
  | 0x5#4 => .seReg (xField w) (yField w) (nField w)
  | 0x6#4 => .ldImm (xField w) (nnField w)
  | 0x7#4 => .addImm (xField w) (nnField w)
  | 0x8#4 => decodeArithmetic w
  | 0x9#4 => .sneReg (xField w) (yField w) (nField w)
  | 0xA#4 => .ldI (nnnField w)
  | 0xB#4 => .jpV0 (nnnField w)
  | 0xC#4 => .rnd (xField w) (nnField w)
  | 0xD#4 => .drw (xField w) (yField w) (nField w)
  | 0xE#4 => decodeKeypad w
  | _ => decodeTimersMemory w

/-! ### From bytes -/

/-- Two bytes as a word, big-endian: the byte at the lower address in bits 15:8 (R60). -/
def joinBytes (hi lo : Byte) : Word := hi ++ lo

/-- The byte of a word that lies at the lower address (R60). -/
def highByte (w : Word) : Byte := w.extractLsb' 8 8

/-- The byte of a word that lies at the higher address (R60). -/
def lowByte (w : Word) : Byte := w.extractLsb' 0 8

/-- Why a list of bytes is no instruction: it holds fewer than the two bytes every instruction has (R90). -/
inductive DecodeError where
  /-- Fewer than two bytes are left. -/
  | truncated
deriving DecidableEq, Repr

/-- The instruction at the head of a list of bytes, and the bytes after it (R90, R60). -/
def decodeBytes : List Byte → Except DecodeError (Instr × List Byte)
  | hi :: lo :: rest => .ok (decode (joinBytes hi lo), rest)
  | _ => .error .truncated

/-- The word a row of the opcode table numbers: its `nbits` bits, the bits above them 0. -/
def tableWord (nbits w : Nat) : Word := BitVec.ofNat 16 (w % 2 ^ nbits)

/-- The instruction the decoder reads from a word numbered as spec/opcode_table.json numbers its bits: the word is laid
out as memory holds it, high byte first, and its bytes are decoded. -/
def decodeTableWord (nbits w : Nat) : Option Instr :=
  match decodeBytes [highByte (tableWord nbits w), lowByte (tableWord nbits w)] with
  | .ok (i, _) => some i
  | .error _ => none

/-! ### Encoding (R92, R96) -/

/-- A register number as the four bits of a word. -/
def regBits (x : Reg) : Nibble := BitVec.ofFin x

/-- Format A (R92): op, NNN. Also the no-op words, whose twelve bits are unread (R97). -/
def formatA (op : Nibble) (nnn : Addr12) : Word := op ++ nnn

/-- Formats SYS, RI and RK (R92): op, a nibble, a byte. -/
def formatRI (op x : Nibble) (nn : Byte) : Word := op ++ (x ++ nn)

/-- Formats RR and RRN (R92): op, three nibbles. -/
def formatRR (op x y n : Nibble) : Word := op ++ (x ++ (y ++ n))

/-- The word of an instruction, from the table of R96; a no-op's word from R97. -/
def encode : Instr → Word
  | .cls ign => formatRI 0x0 ign 0xE0
  | .ret ign => formatRI 0x0 ign 0xEE
  | .jp nnn => formatA 0x1 nnn
  | .call nnn => formatA 0x2 nnn
  | .seImm x nn => formatRI 0x3 (regBits x) nn
  | .sneImm x nn => formatRI 0x4 (regBits x) nn
  | .seReg x y ign => formatRR 0x5 (regBits x) (regBits y) ign
  | .ldImm x nn => formatRI 0x6 (regBits x) nn
  | .addImm x nn => formatRI 0x7 (regBits x) nn
  | .ldReg x y => formatRR 0x8 (regBits x) (regBits y) 0x0
  | .orReg x y => formatRR 0x8 (regBits x) (regBits y) 0x1
  | .andReg x y => formatRR 0x8 (regBits x) (regBits y) 0x2
  | .xorReg x y => formatRR 0x8 (regBits x) (regBits y) 0x3
  | .addReg x y => formatRR 0x8 (regBits x) (regBits y) 0x4
  | .sub x y => formatRR 0x8 (regBits x) (regBits y) 0x5
  | .shr x y => formatRR 0x8 (regBits x) (regBits y) 0x6
  | .subn x y => formatRR 0x8 (regBits x) (regBits y) 0x7
  | .shl x y => formatRR 0x8 (regBits x) (regBits y) 0xE
  | .sneReg x y ign => formatRR 0x9 (regBits x) (regBits y) ign
  | .ldI nnn => formatA 0xA nnn
  | .jpV0 nnn => formatA 0xB nnn
  | .rnd x nn => formatRI 0xC (regBits x) nn
  | .drw x y n => formatRR 0xD (regBits x) (regBits y) n
  | .skp x => formatRI 0xE (regBits x) 0x9E
  | .sknp x => formatRI 0xE (regBits x) 0xA1
  | .ldRegDt x => formatRI 0xF (regBits x) 0x07
  | .ldRegKey x => formatRI 0xF (regBits x) 0x0A
  | .ldDt x => formatRI 0xF (regBits x) 0x15
  | .ldSt x => formatRI 0xF (regBits x) 0x18
  | .addI x => formatRI 0xF (regBits x) 0x1E
  | .ldFont x => formatRI 0xF (regBits x) 0x29
  | .ldBcd x => formatRI 0xF (regBits x) 0x33
  | .storeRegs x => formatRI 0xF (regBits x) 0x55
  | .loadRegs x => formatRI 0xF (regBits x) 0x65
  | .nop0 rest => formatA 0x0 rest
  | .nop8 rest => formatA 0x8 rest
  | .nopE rest => formatA 0xE rest
  | .nopF rest => formatA 0xF rest

/-- Whether an instruction is the no-op routine's (R97). -/
def Instr.isNoOp : Instr → Bool
  | .nop0 _ | .nop8 _ | .nopE _ | .nopF _ => true
  | .cls _ | .ret _ | .jp _ | .call _ | .seImm _ _ | .sneImm _ _ | .seReg _ _ _ | .ldImm _ _ | .addImm _ _ => false
  | .ldReg _ _ | .orReg _ _ | .andReg _ _ | .xorReg _ _ | .addReg _ _ | .sub _ _ | .shr _ _ | .subn _ _ => false
  | .shl _ _ | .sneReg _ _ _ | .ldI _ | .jpV0 _ | .rnd _ _ | .drw _ _ _ | .skp _ | .sknp _ => false
  | .ldRegDt _ | .ldRegKey _ | .ldDt _ | .ldSt _ | .addI _ | .ldFont _ | .ldBcd _ | .storeRegs _ | .loadRegs _ => false

/-! ### The opcode table as mask and match (R96) -/

/-- The `mask` and `match` a row of R96 (or a fallback row of R97) has: the row's words are those with
`w &&& mask = match`, a fallback row's those of them that no earlier row matches. -/
def rowOf : Instr → Word × Word
  | .cls _ => (0xF0FF, 0x00E0)
  | .ret _ => (0xF0FF, 0x00EE)
  | .jp _ => (0xF000, 0x1000)
  | .call _ => (0xF000, 0x2000)
  | .seImm _ _ => (0xF000, 0x3000)
  | .sneImm _ _ => (0xF000, 0x4000)
  | .seReg _ _ _ => (0xF000, 0x5000)
  | .ldImm _ _ => (0xF000, 0x6000)
  | .addImm _ _ => (0xF000, 0x7000)
  | .ldReg _ _ => (0xF00F, 0x8000)
  | .orReg _ _ => (0xF00F, 0x8001)
  | .andReg _ _ => (0xF00F, 0x8002)
  | .xorReg _ _ => (0xF00F, 0x8003)
  | .addReg _ _ => (0xF00F, 0x8004)
  | .sub _ _ => (0xF00F, 0x8005)
  | .shr _ _ => (0xF00F, 0x8006)
  | .subn _ _ => (0xF00F, 0x8007)
  | .shl _ _ => (0xF00F, 0x800E)
  | .sneReg _ _ _ => (0xF000, 0x9000)
  | .ldI _ => (0xF000, 0xA000)
  | .jpV0 _ => (0xF000, 0xB000)
  | .rnd _ _ => (0xF000, 0xC000)
  | .drw _ _ _ => (0xF000, 0xD000)
  | .skp _ => (0xF0FF, 0xE09E)
  | .sknp _ => (0xF0FF, 0xE0A1)
  | .ldRegDt _ => (0xF0FF, 0xF007)
  | .ldRegKey _ => (0xF0FF, 0xF00A)
  | .ldDt _ => (0xF0FF, 0xF015)
  | .ldSt _ => (0xF0FF, 0xF018)
  | .addI _ => (0xF0FF, 0xF01E)
  | .ldFont _ => (0xF0FF, 0xF029)
  | .ldBcd _ => (0xF0FF, 0xF033)
  | .storeRegs _ => (0xF0FF, 0xF055)
  | .loadRegs _ => (0xF0FF, 0xF065)
  | .nop0 _ => (0xF000, 0x0000)
  | .nop8 _ => (0xF000, 0x8000)
  | .nopE _ => (0xF000, 0xE000)
  | .nopF _ => (0xF000, 0xF000)

/-- The 34 rows of R96, in its order. -/
def opcodeRows : List (Word × Word) :=
  [(0xF0FF, 0x00E0), (0xF0FF, 0x00EE), (0xF000, 0x1000), (0xF000, 0x2000), (0xF000, 0x3000), (0xF000, 0x4000)] ++
  [(0xF000, 0x5000), (0xF000, 0x6000), (0xF000, 0x7000), (0xF00F, 0x8000), (0xF00F, 0x8001), (0xF00F, 0x8002)] ++
  [(0xF00F, 0x8003), (0xF00F, 0x8004), (0xF00F, 0x8005), (0xF00F, 0x8006), (0xF00F, 0x8007), (0xF00F, 0x800E)] ++
  [(0xF000, 0x9000), (0xF000, 0xA000), (0xF000, 0xB000), (0xF000, 0xC000), (0xF000, 0xD000), (0xF0FF, 0xE09E)] ++
  [(0xF0FF, 0xE0A1), (0xF0FF, 0xF007), (0xF0FF, 0xF00A), (0xF0FF, 0xF015), (0xF0FF, 0xF018), (0xF0FF, 0xF01E)] ++
  [(0xF0FF, 0xF029), (0xF0FF, 0xF033), (0xF0FF, 0xF055), (0xF0FF, 0xF065)]

/-- A row of the table selects a word when the word's bits under the mask are the row's (R96). -/
def rowMatches (row : Word × Word) (w : Word) : Bool := w &&& row.1 == row.2

end Sys2Proof
end

