-- ==== Sys2Proof/Config.lean ====
section
/-!
DEFINITION. What is fixed by the design (R9), and the parameters of R10: `Params` holds those a machine is built with, any
value of it a machine of its own, and `Config.defaults` is the one with the values the spec gives by default. The random
stream is a free value: it has no body. The image is the argument of LOAD.
-/

namespace Sys2Proof.Config

/-- `MEM_SIZE` (R9): addresses 0x000 to 0xFFF. -/
def memSize : Nat := 4096

/-- `FONT_SIZE` (R9): the table lies at `FONT_BASE` = 0x000. -/
def fontSize : Nat := 80

/-- `PROG_BASE` (R9). -/
def progBase : Nat := 0x200

/-- `PROG_MAX` (R9): 4096 - 0x200. -/
def progMax : Nat := 3584

/-- `RESET_PC` (R9). -/
def resetPc : Word := 0x200#16

/-- The default `FONT`, glyphs 0 to 3 (R31). PRESUMED (log 2): general knowledge, G1. -/
def fontGlyphs0to3 : List Byte :=
  [0xF0, 0x90, 0x90, 0x90, 0xF0] ++ [0x20, 0x60, 0x20, 0x20, 0x70] ++
  [0xF0, 0x10, 0xF0, 0x80, 0xF0] ++ [0xF0, 0x10, 0xF0, 0x10, 0xF0]

/-- The default `FONT`, glyphs 4 to 7 (R31). PRESUMED (log 2). -/
def fontGlyphs4to7 : List Byte :=
  [0x90, 0x90, 0xF0, 0x10, 0x10] ++ [0xF0, 0x80, 0xF0, 0x10, 0xF0] ++
  [0xF0, 0x80, 0xF0, 0x90, 0xF0] ++ [0xF0, 0x10, 0x20, 0x40, 0x40]

/-- The default `FONT`, glyphs 8 to B (R31). PRESUMED (log 2). -/
def fontGlyphs8toB : List Byte :=
  [0xF0, 0x90, 0xF0, 0x90, 0xF0] ++ [0xF0, 0x90, 0xF0, 0x10, 0xF0] ++
  [0xF0, 0x90, 0xF0, 0x90, 0x90] ++ [0xE0, 0x90, 0xE0, 0x90, 0xE0]

/-- The default `FONT`, glyphs C to F (R31). PRESUMED (log 2). -/
def fontGlyphsCtoF : List Byte :=
  [0xF0, 0x80, 0x80, 0x80, 0xF0] ++ [0xE0, 0x90, 0x90, 0x90, 0xE0] ++
  [0xF0, 0x80, 0xF0, 0x80, 0xF0] ++ [0xF0, 0x80, 0xF0, 0x80, 0x80]

/-- The default `FONT` as one list (R31). -/
def fontGlyphs : List Byte := fontGlyphs0to3 ++ fontGlyphs4to7 ++ fontGlyphs8toB ++ fontGlyphsCtoF

/-- A font: 80 bytes, the glyph of digit `d` at `5*d` .. `5*d+4` (R10, R31). -/
abbrev Font := Vector Byte fontSize

/-- The parameters of R10 that a machine is built with. They are no state of the spec (R41): nothing writes them. -/
structure Params where
  /-- `FONT` (R31). -/
  font : Font
  /-- `BLOCK_XFER_INCREMENTS_I` (R217, R218). -/
  blockXferIncrementsI : Bool
deriving DecidableEq, Repr

/-- The default `FONT` (R10, R31). PRESUMED (log 2). -/
def font : Font := ⟨⟨fontGlyphs⟩, by decide⟩

/-- The defaults of R10: the customary font (log 2), and the source's canonical choice for FX55 and FX65 (log 3). -/
def defaults : Params where
  font := font
  blockXferIncrementsI := false

/-- The parameter `rand` (R10, R18, R37): the byte of the n-th execution of CXNN, any value. FREE VALUE (log 1). -/
opaque draw : Nat → Byte

end Sys2Proof.Config
end

