-- ==== Sys2Proof/Machine/State.lean ====
section
/-!
DEFINITION. The machine's state as plain data (R20), its fault record (R38), and the state after RESET (R42, R280).
-/

namespace Sys2Proof.Machine

/-- The five fatal conditions of R250, codes 1 to 5. An instruction or fetch that raises one answers a NEXT state whose
`fault` field records it (R16, R256; log 4): `step` never answers `Outcome.fault`. -/
inductive Fault where
  /-- Code 1: raised by the fetch phase iff `pc > 0xFFE` (R251). Safe: the machine is inert afterwards. -/
  | fetchOutOfBounds
  /-- Code 2: raised by 2NNN iff `sp = 16` (R252). Safe: the machine is inert afterwards. -/
  | stackOverflow
  /-- Code 3: raised by 00EE iff `sp = 0` (R253). Safe: the machine is inert afterwards. -/
  | stackUnderflow
  /-- Code 4: raised by DXYN, FX33, FX55, FX65 iff an address exceeds 0xFFF (R254, R67). Safe: inert afterwards. -/
  | addressOutOfBounds
  /-- Code 5: raised by EX9E, EXA1 iff `V[X] > 15` (R255). Safe: the machine is inert afterwards. -/
  | keyIndexOutOfRange
deriving DecidableEq, Repr

/-- Why the model gives no meaning. No instruction of this machine is refused: all 65536 words are defined (R99). -/
inductive Refusal where
  /-- Raised by no arm of `exec`: every instruction has its meaning. It would be safe: the model stops. -/
  | notModelled (mnemonic : String)
  /-- Raised by the host operation LOAD for an image of 0 or more than 3584 bytes, which the model does not admit
  (R231, U23). Safe: the model stops where the loader fails outside the core. -/
  | imageSizeNotAdmitted
deriving DecidableEq, Repr

/-- The record of a fatal error (R38): the cause and the information word of R250. -/
structure FaultRecord where
  cause : Fault
  info : Word
deriving DecidableEq, Repr

/-- Memory (R30, R65): the font of its reset contents, a parameter (R10, R41; log 30), and the list of written bytes that
differ from their reset contents, addresses strictly rising (log 22). -/
structure Memory where
  /-- The parameter `FONT`: what 0x000 to 0x04F hold after RESET (R31). Nothing writes it. -/
  font : Config.Font
  /-- The bytes that differ from their reset contents. -/
  cells : List Host.Cell
deriving DecidableEq, Repr

/-- The pixel buffer (R34): 32 rows of 64 cells; the cell of column `c` and row `r`, index `r*64 + c`, is bit `c` of
row `r` (log 19). -/
abbrev Frame := Vector (BitVec 64) 32

/-- The complete state of one machine (R20). -/
structure State where
  /-- `memory`, 4096 bytes (R30). -/
  mem : Memory
  /-- `registers` V0..VF (R21). -/
  V : Vector Byte 16
  /-- `indexRegister` (R28). -/
  I : Word
  /-- `instructionPointer` (R24). -/
  pc : Word
  /-- `callStack` (R29); entries from `sp` up are stale. -/
  stack : Vector Word 16
  /-- `stackPointer`, the number of entries in use, 0..16 (R29; log 20). -/
  sp : Fin 17
  /-- `delayTimer` (R32). -/
  DT : Byte
  /-- `soundTimer` (R32). -/
  ST : Byte
  /-- `keyState` (R33). -/
  key : Vector Bool 16
  /-- `pixelBuffer` (R34). -/
  px : Frame
  /-- `redrawPending` (R35). -/
  redraw : Bool
  /-- `currentInstruction` (R36). -/
  ir : Word
  /-- The record of a fatal error (R38); `none` is code 0. -/
  fault : Option FaultRecord
  /-- The MODEL's own: how many random bytes have been drawn (R18, R37; log 1). -/
  drawCount : Nat
  /-- The parameter `BLOCK_XFER_INCREMENTS_I` of the machine (R10, R41; logs 3, 30). Nothing writes it. -/
  blockXferIncrementsI : Bool
deriving DecidableEq, Repr

/-- The state after RESET (R42, R280) of the machine with parameters `p` (R10). No byte is listed: an unlisted byte reads as
its reset contents. The draw counter's 0 is a DESIGN CHOICE (log 1). -/
def State.resetWith (p : Config.Params) : State where
  mem := { font := p.font, cells := [] }
  V := Vector.replicate 16 0
  I := 0
  pc := Config.resetPc
  stack := Vector.replicate 16 0
  sp := 0
  DT := 0
  ST := 0
  key := Vector.replicate 16 false
  px := Vector.replicate 32 0
  redraw := true
  ir := 0
  fault := none
  drawCount := 0
  blockXferIncrementsI := p.blockXferIncrementsI

/-- The state after RESET of the machine with the default parameters (R10; log 30). -/
def State.reset : State := State.resetWith Config.defaults

/-- The parameters a machine was built with (R10), wherever it is in its run. -/
def State.params (s : State) : Config.Params where
  font := s.mem.font
  blockXferIncrementsI := s.blockXferIncrementsI

end Sys2Proof.Machine
end

