-- ==== Sys2Proof/Machine/Flags.lean ====
section
/-!
DEFINITION. Every flag computation of the machine (R39): the value VF receives from 8XY4 to 8XYE. The collision flag of
DXYN is computed beside the drawing, in Machine/Graphics.lean. Operands are the latched values (R17).
-/

namespace Sys2Proof.Machine

/-- A flag as VF holds it: 1 or 0 (R22). -/
def flagByte (b : Bool) : Byte := if b then 1 else 0

/-- 8XY4 (R175): 1 iff `vx + vy > 255`. -/
def carryFlag (vx vy : Byte) : Bool := decide (vx.toNat + vy.toNat > 255)

/-- 8XY5 with (vx, vy) and 8XY7 with (vy, vx) (R176, R178): 1 iff the minuend is at least the subtrahend. -/
def noBorrowFlag (minuend subtrahend : Byte) : Bool := decide (minuend.toNat ≥ subtrahend.toNat)

/-- 8XY6 (R177): the bit shifted out, `vx[0]`. -/
def shiftRightFlag (vx : Byte) : Bool := vx.getLsbD 0

/-- 8XYE (R179): the bit shifted out, `vx[7]`. -/
def shiftLeftFlag (vx : Byte) : Bool := vx.getLsbD 7

end Sys2Proof.Machine
end

