-- ==== Sys2Proof/Machine/Memory.lean ====
section
/-!
DEFINITION. The one memory (R30, R65) as a canonical list of cells: reading and writing a byte, and blocks of bytes at
rising addresses. These operations make no bounds check: the data transfers check before their first access (R67) in
Machine/Ops.lean, as R15's `MemRead` and `MemWrite` do.
-/

namespace Sys2Proof.Machine

/-- What byte `a` reads as that nothing has written: its reset contents, the font below 0x050 and 0 above (R42, R65;
log 22). -/
def unlistedByte (font : Config.Font) (a : Nat) : Byte := font.toList.getD a 0

/-- The byte a list of cells gives address `a`, over a font. -/
def readCells (font : Config.Font) : List Host.Cell → Nat → Byte
  | [], a => unlistedByte font a
  | c :: cs, a => if c.1 = a then c.2 else readCells font cs a

/-- The byte `mem[a]` (R14). -/
def Memory.read (m : Memory) (a : Nat) : Byte := readCells m.font m.cells a

/-- Put a cell where its address belongs. -/
def insertCell (a : Nat) (b : Byte) : List Host.Cell → List Host.Cell
  | [] => [(a, b)]
  | c :: cs => if a < c.1 then (a, b) :: c :: cs else c :: insertCell a b cs

/-- `mem[a] <- b` (R14): the old cell goes, and a new one is listed unless `b` is what an unlisted byte reads as.
No address is protected, the font's neither (R68; log 15). -/
def Memory.write (m : Memory) (a : Nat) (b : Byte) : Memory :=
  let others := m.cells.filter (fun c => c.1 != a)
  { m with cells := if b = unlistedByte m.font a then others else insertCell a b others }

/-- Store bytes at `base`, `base + 1`, … in this order (R61). -/
def Memory.writeBlock (m : Memory) (base : Nat) : List Byte → Memory
  | [] => m
  | b :: bs => Memory.writeBlock (m.write base b) (base + 1) bs

/-- The `n` bytes at `base`, `base + 1`, … (R61). -/
def Memory.readBlock (m : Memory) (base : Nat) : Nat → List Byte
  | 0 => []
  | n + 1 => m.read base :: Memory.readBlock m (base + 1) n

/-- The addresses of a list of cells rise strictly, and every one is at least `lo`. -/
def risesFrom (lo : Nat) : List Host.Cell → Bool
  | [] => true
  | c :: cs => decide (lo ≤ c.1) && risesFrom (c.1 + 1) cs

/-- The canonical form: addresses strictly rising and inside the 4096-byte space, no entry equal to what its unlisted
address reads as. Equal memories of one font are then equal lists. -/
def Memory.wf (m : Memory) : Bool :=
  risesFrom 0 m.cells && m.cells.all (fun c => decide (c.1 < Config.memSize) && c.2 != unlistedByte m.font c.1)

end Sys2Proof.Machine
end

