-- ==== Sys2Proof/Machine/Operands.lean ====
section
/-!
DEFINITION. Operand forms: immediates (R93), register operands (R21), the one data addressing mode (R219), and the
values FX29 and FX33 make of a register.
-/

namespace Sys2Proof.Machine

/-- The read `V[x]` (R14, R21); no register is hardwired. -/
def State.reg (s : State) (x : Reg) : Byte := s.V[x]

/-- `NNN` zero-extended to 16 bits, as `pc` and `I` receive it (R93). -/
def immediateAddress (nnn : Addr12) : Word := nnn.setWidth 16

/-- A register zero-extended to 16 bits (R93, R148, R214). -/
def widen (b : Byte) : Word := b.setWidth 16

/-- The effective address `I + k`: an unbounded sum (R66, R219). -/
def effectiveAddress (base : Word) (k : Nat) : Nat := base.toNat + k

/-- FX29's address (R215): `(vx & 0xF) * 5`. -/
def glyphAddress (vx : Byte) : Word := widen (vx &&& 0x0F) * 5

/-- FX33's bytes (R216): hundreds, tens, ones, one digit a byte. -/
def decimalDigits (vx : Byte) : List Byte :=
  [BitVec.ofNat 8 (vx.toNat / 100), BitVec.ofNat 8 (vx.toNat / 10 % 10), BitVec.ofNat 8 (vx.toNat % 10)]

/-- The registers `V[0]` .. `V[x]` in order (R217). -/
def State.regsUpTo (s : State) (x : Reg) : List Byte := s.V.toList.take (x.val + 1)

end Sys2Proof.Machine
end

