-- ==== Sys2Proof/Machine/Ops.lean ====
section
/-!
DEFINITION. The named operations the instructions share: register writes, the fetch phase (R121), raising a fatal error
(R16, R256), skips, the call stack (R29), the bounds check of a data transfer (R67), block transfers (R217, R218) and
the key scan (R211).
-/

namespace Sys2Proof.Machine

/-- What an operation answers. -/
abbrev Answer := Host.Outcome State Fault Refusal

/-! ### Registers -/

/-- `V[x] <- b` (R14). -/
def State.setReg (s : State) (x : Reg) (b : Byte) : State := { s with V := s.V.set x b }

/-- The writes of 8XY4 to 8XYE: VF receives the flag first, `V[x]` the result second, so that with `x = 15` the result
stays (R17, R22, R170; the spec's decision D6, log 6). -/
def State.setFlagThenReg (s : State) (x : Reg) (flag : Bool) (result : Byte) : State :=
  (s.setReg Reg.VF (flagByte flag)).setReg x result

/-! ### Raising a fatal error: all there is of trap entry (R16, R256); there is no return from it (R257) -/

/-- `raise f(info)`: the record is written and nothing else; the writes of the execute phase are not performed because
every meaning raises before its first write, and `ir` and `pc` stay as the fetch phase left them (R16, R256; log 7). -/
def State.raise (s : State) (f : Fault) (info : Word) : State := { s with fault := some ⟨f, info⟩ }

/-- Whether the machine is in the faulted state (R256). -/
def State.faulted (s : State) : Bool := s.fault.isSome

/-- The cause code of R250, 0 for none. -/
def State.faultCode (s : State) : Nat :=
  match s.fault with
  | none => 0
  | some r =>
    match r.cause with
    | .fetchOutOfBounds => 1
    | .stackOverflow => 2
    | .stackUnderflow => 3
    | .addressOutOfBounds => 4
    | .keyIndexOutOfRange => 5

/-- The information word of R250, 0 when there is no fault (R38). -/
def State.faultInfo (s : State) : Word :=
  match s.fault with
  | none => 0
  | some r => r.info

/-! ### The fetch phase (R121) -/

/-- A fetch is legal iff both bytes are inside memory, `pc <= 0xFFE` (R15, R121; the spec's decision D3, log 12). -/
def State.canFetch (s : State) : Bool := decide (s.pc.toNat ≤ 0xFFE)

/-- `Fetch16(pc)`: `mem[pc] ++ mem[pc+1]` (R15, R60), at any parity (R62; log 14). -/
def State.fetchWord (s : State) : Word := joinBytes (s.mem.read s.pc.toNat) (s.mem.read (s.pc.toNat + 1))

/-- What the fetch phase writes: `ir <- w`, `pc <- pc + 2` (R120, R121; log 21). -/
def State.fetched (s : State) (w : Word) : State := { s with ir := w, pc := s.pc + 2 }

/-! ### Control flow -/

/-- `pc <- a`. -/
def State.jumpTo (s : State) (a : Word) : State := { s with pc := a }

/-- A skip: `pc <- pc + 2` when the condition holds (R19, R144). -/
def State.skipIf (s : State) (c : Bool) : State := if c then { s with pc := s.pc + 2 } else s

/-- `stack[sp] <- a; sp <- sp + 1`; none when sixteen entries are in use (R29, R143). -/
def State.push (s : State) (a : Word) : Option State :=
  if h : s.sp.val < 16 then
    some { s with stack := s.stack.set s.sp.val a, sp := ⟨s.sp.val + 1, by omega⟩ }
  else none

/-- `sp <- sp - 1`, and the entry `stack[sp]`, which is not erased; none when no entry is in use (R29, R141). -/
def State.pop (s : State) : Option (Word × State) :=
  if h : 0 < s.sp.val then
    some (s.stack[s.sp.val - 1], { s with sp := ⟨s.sp.val - 1, by omega⟩ })
  else none

/-! ### Data transfers -/

/-- Whether a transfer of `count` bytes at `base` reaches outside memory: `count >= 1` and the unbounded sum
`base + count - 1` exceeds 0xFFF (R66, R67; the spec's decisions D5, D16, log 13). -/
def transferOutOfBounds (base : Word) (count : Nat) : Bool :=
  decide (1 ≤ count ∧ effectiveAddress base (count - 1) > 0xFFF)

/-- The information recorded for it: the lowest address outside memory, `max(base, 0x1000)` (R250; log 27). -/
def lowestOffending (base : Word) : Word := if base.toNat < 0x1000 then 0x1000#16 else base

/-- A data transfer of `count` bytes at `I`: raise before any write if it reaches outside memory, else the state
`done` (R16, R67, R254). -/
def State.transfer (s : State) (count : Nat) (done : State) : Answer :=
  if transferOutOfBounds s.I count then .next (s.raise .addressOutOfBounds (lowestOffending s.I)) else .next done

/-- `I` after FX55 or FX65 of registers 0..x: unchanged, or `(base + x + 1) mod 65536` under the option
`BLOCK_XFER_INCREMENTS_I` (R217, R218; log 3). -/
def indexAfterBlock (increments : Bool) (base : Word) (x : Reg) : Word :=
  if increments then BitVec.ofNat 16 (base.toNat + x.val + 1) else base

/-- FX55's effect when it does not fault (R217). -/
def State.storeBlock (s : State) (x : Reg) : State :=
  { s with mem := s.mem.writeBlock s.I.toNat (s.regsUpTo x), I := indexAfterBlock s.blockXferIncrementsI s.I x }

/-- FX65's effect when it does not fault: registers above `x` are untouched (R218). -/
def State.loadBlock (s : State) (x : Reg) : State :=
  { s with
    V := Vector.ofFn fun i : Fin 16 => if i ≤ x then s.mem.read (effectiveAddress s.I i.val) else s.V[i]
    I := indexAfterBlock s.blockXferIncrementsI s.I x }

/-! ### Keys -/

/-- The least held key (R211; the spec's decision D9, log 10). -/
def State.lowestHeldKey (s : State) : Option Key := (List.finRange 16).find? fun k => s.key[k]

/-- The key skips' index check: `V[x] > 15` raises `KeyIndexOutOfRange`, else `skip` says whether to skip, given the
state of key `V[x]` (R200 to R202; the spec's decision D8, log 11). -/
def State.keySkip (s : State) (x : Reg) (skip : Bool → Bool) : Answer :=
  if h : (s.reg x).toNat < 16 then .next (s.skipIf (skip s.key[(s.reg x).toNat]))
  else .next (s.raise .keyIndexOutOfRange (widen (s.reg x)))

end Sys2Proof.Machine
end

