-- ==== Sys2Proof/Machine/Arithmetic.lean ====
section
/-!
DEFINITION. Arithmetic and logic (43_arithmetic_logic.md): family 8XYn and CXNN. Operands are latched: every flag and
result is computed from the registers of the state given (R17, R170).
-/

namespace Sys2Proof.Machine

/-- 8XY0 (R171). -/
def execLdReg (x y : Reg) (s : State) : Answer := .next (s.setReg x (s.reg y))

/-- 8XY1 (R172). -/
def execOrReg (x y : Reg) (s : State) : Answer := .next (s.setReg x (s.reg x ||| s.reg y))

/-- 8XY2 (R173). -/
def execAndReg (x y : Reg) (s : State) : Answer := .next (s.setReg x (s.reg x &&& s.reg y))

/-- 8XY3 (R174). -/
def execXorReg (x y : Reg) (s : State) : Answer := .next (s.setReg x (s.reg x ^^^ s.reg y))

/-- 8XY4 (R175). -/
def execAddReg (x y : Reg) (s : State) : Answer :=
  .next (s.setFlagThenReg x (carryFlag (s.reg x) (s.reg y)) (s.reg x + s.reg y))

/-- 8XY5 (R176). -/
def execSub (x y : Reg) (s : State) : Answer :=
  .next (s.setFlagThenReg x (noBorrowFlag (s.reg x) (s.reg y)) (s.reg x - s.reg y))

/-- 8XY6 (R177): `V[Y]` is not read. -/
def execShr (x _y : Reg) (s : State) : Answer :=
  .next (s.setFlagThenReg x (shiftRightFlag (s.reg x)) (s.reg x >>> 1))

/-- 8XY7 (R178). -/
def execSubn (x y : Reg) (s : State) : Answer :=
  .next (s.setFlagThenReg x (noBorrowFlag (s.reg y) (s.reg x)) (s.reg y - s.reg x))

/-- 8XYE (R179): `V[Y]` is not read. -/
def execShl (x _y : Reg) (s : State) : Answer :=
  .next (s.setFlagThenReg x (shiftLeftFlag (s.reg x)) (s.reg x <<< 1))

/-- CXNN (R180): the draw is a free value, one for each execution (R18, R37; log 1). -/
def execRnd (x : Reg) (nn : Byte) (s : State) : Answer :=
  .next { s.setReg x (Config.draw s.drawCount &&& nn) with drawCount := s.drawCount + 1 }

end Sys2Proof.Machine
end

