-- ==== Sys2Proof/Machine/ControlFlow.lean ====
section
/-!
DEFINITION. Control flow and clear display (41_control_flow.md): 00E0, 00EE, 1NNN, 2NNN, 3XNN, 4XNN, 5XY0, 9XY0, BNNN.
In each, `s.pc` is the address of the instruction plus 2 (R140).
-/

namespace Sys2Proof.Machine

/-- The frame of 00E0: every cell 0 (R149). -/
def clearFrame : Frame := Vector.replicate 32 0

/-- 00E0 (R149); the ignored nibble has no effect (R98; log 9). -/
def execCls (_ign : Nibble) (s : State) : Answer := .next { s with px := clearFrame, redraw := true }

/-- 00EE (R141, R253); the ignored nibble has no effect (R98; log 9). -/
def execRet (_ign : Nibble) (s : State) : Answer :=
  match s.pop with
  | some (a, s') => .next (s'.jumpTo a)
  | none => .next (s.raise .stackUnderflow 0)

/-- 1NNN (R142). -/
def execJp (nnn : Addr12) (s : State) : Answer := .next (s.jumpTo (immediateAddress nnn))

/-- 2NNN (R143, R252). -/
def execCall (nnn : Addr12) (s : State) : Answer :=
  match s.push s.pc with
  | some s' => .next (s'.jumpTo (immediateAddress nnn))
  | none => .next (s.raise .stackOverflow 16)

/-- 3XNN (R144). -/
def execSeImm (x : Reg) (nn : Byte) (s : State) : Answer := .next (s.skipIf (s.reg x == nn))

/-- 4XNN (R145). -/
def execSneImm (x : Reg) (nn : Byte) (s : State) : Answer := .next (s.skipIf (s.reg x != nn))

/-- 5XY0 (R146); the ignored nibble has no effect (R98; log 9). -/
def execSeReg (x y : Reg) (_ign : Nibble) (s : State) : Answer := .next (s.skipIf (s.reg x == s.reg y))

/-- 9XY0 (R147); the ignored nibble has no effect (R98; log 9). -/
def execSneReg (x y : Reg) (_ign : Nibble) (s : State) : Answer := .next (s.skipIf (s.reg x != s.reg y))

/-- BNNN (R148): the register is always V0. -/
def execJpV0 (nnn : Addr12) (s : State) : Answer := .next (s.jumpTo (widen (s.reg 0) + immediateAddress nnn))

end Sys2Proof.Machine
end

