-- ==== Sys2Proof/Machine/Graphics.lean ====
section
/-!
DEFINITION. The graphics compositing engine and the collision detector (44_graphics.md): DXYN, as the loop of R190.
-/

namespace Sys2Proof.Machine

/-- The cell of column `cx` and row `cy` (R34). -/
def Frame.cell (p : Frame) (cx : Fin 64) (cy : Fin 32) : Bool := p[cy].getLsbD cx.val

/-- The cell `px[i]`, `i = row*64 + col` (R34). -/
def Frame.pixel (p : Frame) (i : Fin 2048) : Bool :=
  Frame.cell p ⟨i.val % 64, Nat.mod_lt _ (by decide)⟩ ⟨i.val / 64, by omega⟩

/-- `px[i] <- px[i] ^ 1` for the cell of column `cx` and row `cy` (R190). -/
def Frame.toggle (p : Frame) (cx : Fin 64) (cy : Fin 32) : Frame := p.set cy (p[cy] ^^^ (1#64 <<< cx.val))

/-- The column a sprite bit lands on, wrapped per pixel: `(vx + col) mod 64` of the unbounded sum (R190). -/
def wrapColumn (vx : Byte) (col : Nat) : Fin 64 := ⟨(vx.toNat + col) % 64, Nat.mod_lt _ (by decide)⟩

/-- The row a sprite row lands on: `(vy + row) mod 32` (R190). -/
def wrapRow (vy : Byte) (row : Nat) : Fin 32 := ⟨(vy.toNat + row) % 32, Nat.mod_lt _ (by decide)⟩

/-- One sprite bit: a lit bit toggles its cell and collides if the cell was lit; an unlit bit does nothing (R190).
The pair is the frame and whether a collision has been seen. -/
def plotBit (lit : Bool) (cx : Fin 64) (cy : Fin 32) (c : Frame × Bool) : Frame × Bool :=
  if lit then (c.1.toggle cx cy, c.2 || c.1.cell cx cy) else c

/-- The bits of one sprite byte from column offset `col` on, `left` of them, most significant first (R61, R190). -/
def plotBits (b : Byte) (vx : Byte) (cy : Fin 32) : Nat → Nat → Frame × Bool → Frame × Bool
  | _, 0, c => c
  | col, left + 1, c => plotBits b vx cy (col + 1) left (plotBit (b.getLsbD (7 - col)) (wrapColumn vx col) cy c)

/-- The rows of a sprite from row offset `row` on (R190). -/
def plotRows (vx vy : Byte) : Nat → List Byte → Frame × Bool → Frame × Bool
  | _, [], c => c
  | row, b :: bs, c => plotRows vx vy (row + 1) bs (plotBits b vx (wrapRow vy row) 0 8 c)

/-- A whole sprite drawn on a frame: the frame after, and whether a lit sprite bit landed on a lit cell (R190). -/
def drawSprite (vx vy : Byte) (sprite : List Byte) (p : Frame) : Frame × Bool := plotRows vx vy 0 sprite (p, false)

/-- DXYN (R190): the origin registers are latched before VF is written (R17), a fault comes before any write (R67), and
`redraw` is set on every execution that does not fault (R35; the spec's decisions D5, D6, D15, logs 6, 7, 16). -/
def execDrw (x y : Reg) (n : Nibble) (s : State) : Answer :=
  let drawn := drawSprite (s.reg x) (s.reg y) (s.mem.readBlock s.I.toNat n.toNat) s.px
  s.transfer n.toNat { s.setReg Reg.VF (flagByte drawn.2) with px := drawn.1, redraw := true }

end Sys2Proof.Machine
end

