-- ==== Sys2Proof/Machine/Immediate.lean ====
section
/-!
DEFINITION. Immediate loads (42_immediate_and_index.md): 6XNN, 7XNN, ANNN.
-/

namespace Sys2Proof.Machine

/-- 6XNN (R160). -/
def execLdImm (x : Reg) (nn : Byte) (s : State) : Answer := .next (s.setReg x nn)

/-- 7XNN (R161): modulo 256, VF not written. PRESUMED (log 8): the spec marks it general knowledge, G3. -/
def execAddImm (x : Reg) (nn : Byte) (s : State) : Answer := .next (s.setReg x (s.reg x + nn))

/-- ANNN (R162). PRESUMED (log 8): the spec marks it general knowledge, G4. -/
def execLdI (nnn : Addr12) (s : State) : Answer := .next { s with I := immediateAddress nnn }

end Sys2Proof.Machine
end

