-- ==== Sys2Proof/Machine/Keypad.lean ====
section
/-!
DEFINITION. Keypad skips (45_keypad.md): EX9E, EXA1.
-/

namespace Sys2Proof.Machine

/-- EX9E (R201): skip if the key `V[x]` is held. -/
def execSkp (x : Reg) (s : State) : Answer := s.keySkip x fun held => held

/-- EXA1 (R202): skip if the key `V[x]` is not held. -/
def execSknp (x : Reg) (s : State) : Answer := s.keySkip x fun held => !held

end Sys2Proof.Machine
end

