-- ==== Sys2Proof/Machine/NoOp.lean ====
section
/-!
DEFINITION. The default no-op routine (R126), once for each fallback row of the opcode table (R97).
No bit of the word is read.
-/

namespace Sys2Proof.Machine

/-- The no-op routine: it changes no state in the execute phase (R126). -/
def noOp (s : State) : Answer := .next s

/-- NOP.0 (R97, R126). -/
def execNop0 (_rest : Addr12) (s : State) : Answer := noOp s

/-- NOP.8 (R97, R126). -/
def execNop8 (_rest : Addr12) (s : State) : Answer := noOp s

/-- NOP.E (R97, R126). -/
def execNopE (_rest : Addr12) (s : State) : Answer := noOp s

/-- NOP.F (R97, R126). -/
def execNopF (_rest : Addr12) (s : State) : Answer := noOp s

end Sys2Proof.Machine
end

