-- ==== Sys2Proof/Machine/TimersMemory.lean ====
section
/-!
DEFINITION. Timers, wait for key, index arithmetic and block transfer (46_timers_memory.md): family FXnn.
-/

namespace Sys2Proof.Machine

/-- FX07 (R210). -/
def execLdRegDt (x : Reg) (s : State) : Answer := .next (s.setReg x s.DT)

/-- FX0A (R211): the least held key's number, or back to this instruction. -/
def execLdRegKey (x : Reg) (s : State) : Answer :=
  match s.lowestHeldKey with
  | some k => .next (s.setReg x (BitVec.ofNat 8 k.val))
  | none => .next (s.jumpTo (s.pc - 2))

/-- FX15 (R212). -/
def execLdDt (x : Reg) (s : State) : Answer := .next { s with DT := s.reg x }

/-- FX18 (R213). -/
def execLdSt (x : Reg) (s : State) : Answer := .next { s with ST := s.reg x }

/-- FX1E (R214): modulo 65536, no flag, no fault. -/
def execAddI (x : Reg) (s : State) : Answer := .next { s with I := s.I + widen (s.reg x) }

/-- FX29 (R215). -/
def execLdFont (x : Reg) (s : State) : Answer := .next { s with I := glyphAddress (s.reg x) }

/-- FX33 (R216). -/
def execLdBcd (x : Reg) (s : State) : Answer :=
  s.transfer 3 { s with mem := s.mem.writeBlock s.I.toNat (decimalDigits (s.reg x)) }

/-- FX55 (R217): the field X itself gives the count. -/
def execStoreRegs (x : Reg) (s : State) : Answer :=
  s.transfer (x.val + 1) (s.storeBlock x)

/-- FX65 (R218). -/
def execLoadRegs (x : Reg) (s : State) : Answer :=
  s.transfer (x.val + 1) (s.loadBlock x)

end Sys2Proof.Machine
end

