-- ==== Sys2Proof/Machine/Cycle.lean ====
section
/-!
DEFINITION. The CYCLE operation (R120) and the placing of a word where CYCLE fetches next.
-/

namespace Sys2Proof.Machine

/-- CYCLE (R120, R259): (1) in the faulted state nothing changes; (2) a fetch outside memory raises
`FetchOutOfBounds(pc)` before `ir` and `pc` are written (R251); (3) else fetch, decode, execute. -/
def cycle (s : State) : Answer :=
  if s.faulted then .next s
  else if s.canFetch then exec (decode s.fetchWord) (s.fetched s.fetchWord)
  else .next (s.raise .fetchOutOfBounds s.pc)

/-- `s` made able to fetch: no fault and, where `pc` lies outside memory, `pc` at the reset address (log 18). -/
def readyToFetch (s : State) : State :=
  { s with fault := none, pc := if s.canFetch then s.pc else Config.resetPc }

/-- A word stored where the next CYCLE fetches: its high byte at `pc`, its low byte at `pc + 1` (R60). -/
def placeWord (s : State) (w : Word) : State :=
  let r := readyToFetch s
  { r with mem := r.mem.writeBlock r.pc.toNat [highByte w, lowByte w] }

end Sys2Proof.Machine
end

