-- ==== Sys2Proof/Machine/Step.lean ====
section
/-!
DEFINITION. The machine's step is one CYCLE. The host's other operations are in Machine/HostOps.lean.
-/

namespace Sys2Proof.Machine

/-- One step: the CYCLE operation (R120; log 24). -/
def step (s : State) : Host.Outcome State Fault Refusal := cycle s

/-- `s` with the instruction of an opcode-table word stored where `step` fetches its next instruction. It stands for
the load of a program from outside the machine (R231; log 17). -/
def State.withFetchWord (s : State) (nbits w : Nat) : State := placeWord s (tableWord nbits w)

end Sys2Proof.Machine
end

