-- ==== Sys2Proof/Machine/HostOps.lean ====
section
/-!
DEFINITION. The host's operations on the core (R8, R230): RESET, LOAD, TICK, KEY, REDRAW_ACK beside CYCLE, and the state
the core exports (R235). Each is atomic and the host invokes one at a time; which it invokes next is the host's choice
(R127, R128), so a claim about a run speaks of lists of operations, in Safety.lean.
-/

namespace Sys2Proof.Machine

/-- The six operations of R8. KEY's index is 0..15 by its type (R233, U24). -/
inductive Operation where
  /-- RESET (R280). -/
  | reset
  /-- LOAD(image) (R231). -/
  | load (image : List Byte)
  /-- CYCLE (R120). -/
  | cycle
  /-- TICK (R232). -/
  | tick
  /-- KEY(k, held) (R233). -/
  | key (k : Key) (held : Bool)
  /-- REDRAW_ACK (R234). -/
  | redrawAck
deriving DecidableEq, Repr

/-- RESET (R280): the state of R42, the machine's parameters staying as they are (R41). The random source is not reseeded to a known point: the draws go on (log 26). -/
def resetMachine (s : State) : State := { State.resetWith s.params with drawCount := s.drawCount }

/-- LOAD (R231): byte `i` of the image becomes `mem[0x200 + i]`; an image of 0 or more than 3584 bytes is not admitted
(log 25). -/
def loadImage (image : List Byte) (s : State) : Answer :=
  if 1 ≤ image.length ∧ image.length ≤ Config.progMax then
    .next { s with mem := s.mem.writeBlock Config.progBase image }
  else .refused .imageSizeNotAdmitted

/-- A timer one tick later: down by one, never below 0 (R32, R232). -/
def countDown (t : Byte) : Byte := if t = 0 then 0 else t - 1

/-- TICK (R232): both timers count down; nothing happens in the faulted state (R256; logs 24, 28). -/
def tick (s : State) : State :=
  if s.faulted then s else { s with DT := countDown s.DT, ST := countDown s.ST }

/-- KEY (R233): one flag of the latch, in the faulted state too (R256). -/
def setKey (k : Key) (held : Bool) (s : State) : State := { s with key := s.key.set k held }

/-- REDRAW_ACK (R234), in the faulted state too (R256). -/
def acknowledgeRedraw (s : State) : State := { s with redraw := false }

/-- What an operation does. -/
def perform : Operation → State → Answer
  | .reset, s => .next (resetMachine s)
  | .load image, s => loadImage image s
  | .cycle, s => step s
  | .tick, s => .next (tick s)
  | .key k held, s => .next (setKey k held s)
  | .redrawAck, s => .next (acknowledgeRedraw s)

/-- What the host may read between operations (R235). -/
structure Exports where
  px : Frame
  redraw : Bool
  DT : Byte
  ST : Byte
  faultCode : Nat
  faultInfo : Word
deriving DecidableEq, Repr

/-- The exported state (R235). -/
def State.exports (s : State) : Exports where
  px := s.px
  redraw := s.redraw
  DT := s.DT
  ST := s.ST
  faultCode := s.faultCode
  faultInfo := s.faultInfo

end Sys2Proof.Machine
end

