-- ==== Sys2Proof/Safety.lean ====
section
/-!
DEFINITION. What claims are stated in: which operation the host may invoke when (R127, R230), the states such runs
reach, what a safe run is, and the invariants of the machine (R27, R250, R285).
-/

namespace Sys2Proof.Machine

/-! ### Runs (R127) -/

/-- Where the host is in a run: whether LOAD is still admitted (R231: once, after RESET, before the first CYCLE). -/
inductive Phase where
  /-- After RESET, before LOAD and before the first CYCLE. -/
  | fresh
  /-- After LOAD or the first CYCLE. -/
  | running
deriving DecidableEq, Repr

/-- Whether the host may invoke an operation, and where it is afterwards. RESET starts anew at any time (R280); LOAD
comes at most once after it and before the first CYCLE (R231, U23); without LOAD the machine is still defined (R282). -/
def Operation.admitted : Phase → Operation → Option Phase
  | _, .reset => some .fresh
  | .fresh, .load _ => some .running
  | .running, .load _ => none
  | _, .cycle => some .running
  | ph, .tick => some ph
  | ph, .key _ _ => some ph
  | ph, .redrawAck => some ph

/-- The states a run reaches (R127): from a machine just created, with whatever parameters (R10) and
whatever draws before, by admitted operations. -/
inductive Reachable : Phase → State → Prop where
  | created (p : Config.Params) (n : Nat) : Reachable .fresh { State.resetWith p with drawCount := n }
  | operation {ph ph' : Phase} {s s' : State} (op : Operation) (reached : Reachable ph s)
      (admitted : op.admitted ph = some ph') (performed : perform op s = .next s') : Reachable ph' s'

/-- A safe state: no fatal error has been raised (R250, R256). A claim about a program proves or assumes this of every
state of its run. -/
def State.safe (s : State) : Prop := s.fault = none

/-! ### Invariants -/

/-- The information word agrees with its cause (R250): the `pc`, 16, 0, an address from 0x1000 up, a register value
above 15. -/
def FaultRecord.wf (r : FaultRecord) : Bool :=
  match r.cause with
  | .fetchOutOfBounds => decide (0xFFE < r.info.toNat ∧ r.info.toNat ≤ 0x10FE)
  | .stackOverflow => r.info == 16
  | .stackUnderflow => r.info == 0
  | .addressOutOfBounds => decide (0x1000 ≤ r.info.toNat)
  | .keyIndexOutOfRange => decide (15 < r.info.toNat ∧ r.info.toNat ≤ 255)

/-- The ranges of R27 and R250: `pc` never exceeds 0x10FE, no stack entry exceeds 0x1000, and the fault record, if there
is one, is one that R250 admits. -/
structure State.InRange (s : State) : Prop where
  pc_le : s.pc.toNat ≤ 0x10FE
  stack_le : ∀ k : Fin 16, s.stack[k].toNat ≤ 0x1000
  fault_wf : ∀ r, s.fault = some r → r.wf = true

/-- The invariant of the machine: memory keeps its canonical form, and the ranges hold. -/
structure State.Inv (s : State) : Prop where
  mem_wf : s.mem.wf = true
  inRange : s.InRange

/-! ### What the rules' tables say of the instructions -/

/-- Whether the table of R23 lets an instruction write register `r`: its destination, VF as a flag, the registers a
block load covers. -/
def mayWriteReg (i : Instr) (r : Reg) : Bool :=
  match i with
  | .ldImm x _ | .addImm x _ | .rnd x _ => r == x
  | .ldReg x _ | .orReg x _ | .andReg x _ | .xorReg x _ => r == x
  | .addReg x _ | .sub x _ | .shr x _ | .subn x _ | .shl x _ => r == x || r == Reg.VF
  | .drw _ _ _ => r == Reg.VF
  | .ldRegDt x | .ldRegKey x => r == x
  | .loadRegs x => decide (r ≤ x)
  | .cls _ | .ret _ | .jp _ | .call _ | .seImm _ _ | .sneImm _ _ | .seReg _ _ _ | .sneReg _ _ _ => false
  | .ldI _ | .jpV0 _ | .skp _ | .sknp _ | .ldDt _ | .ldSt _ | .addI _ | .ldFont _ | .ldBcd _ | .storeRegs _ => false
  | .nop0 _ | .nop8 _ | .nopE _ | .nopF _ => false

/-- The instructions R124 excepts whatever the state: control flow and skips. -/
def changesFlow : Instr → Bool
  | .jp _ | .call _ | .ret _ | .jpV0 _ => true
  | .seImm _ _ | .sneImm _ _ | .seReg _ _ _ | .sneReg _ _ _ | .skp _ | .sknp _ => true
  | .cls _ | .ldImm _ _ | .addImm _ _ | .ldReg _ _ | .orReg _ _ | .andReg _ _ | .xorReg _ _ | .addReg _ _ => false
  | .sub _ _ | .shr _ _ | .subn _ _ | .shl _ _ | .ldI _ | .rnd _ _ | .drw _ _ _ | .ldRegDt _ | .ldRegKey _ => false
  | .ldDt _ | .ldSt _ | .addI _ | .ldFont _ | .ldBcd _ | .storeRegs _ | .loadRegs _ => false
  | .nop0 _ | .nop8 _ | .nopE _ | .nopF _ => false

/-- Whether DXYN executed in `s` has a lit sprite bit on the cell of index `i`: the set S of R191. -/
def State.spriteLights (s : State) (x y : Reg) (n : Nibble) (i : Nat) : Prop :=
  ∃ row < n.toNat, ∃ col < 8, (s.mem.read (s.I.toNat + row)).getLsbD (7 - col) = true ∧
    i = ((s.V[y].toNat + row) % 32) * 64 + (s.V[x].toNat + col) % 64

end Sys2Proof.Machine
end

