-- ==== Sys2Proof/Certificates/Slice0/Obligations.lean ====
section
/-!
DEFINITION. The statements for the provers. Each docstring names the rule or the section of spec/ it formalises; where a
clause rests on a decision the spec marks as its own (D<n>) or on a log entry, the docstring says so.
-/

open Sys2Proof Sys2Proof.Machine

/-! ### Encoding and decoding -/

/-- 30_encoding.md sections 1 to 5: no operand, ignored or unread bit of a well-formed instruction is lost. -/
def Obligations.DecodeOfEncodeIsIdentity : Prop :=
  ∀ i : Instr, i.wf = true → decode (encode i) = i

/-- 30_encoding.md sections 4 and 5: every word decodes to a well-formed instruction whose word it is. -/
def Obligations.EncodeOfDecodeIsIdentity : Prop :=
  ∀ w : Word, (decode w).wf = true ∧ encode (decode w) = w

/-- R100, with the fields read arithmetically: `op = w / 4096`, `X = w / 256 mod 16`, `Y = w / 16 mod 16`,
`N = w mod 16`, `NN = w mod 256`, `NNN = w mod 4096`. -/
def Obligations.DecodeFollowsTheDispatchTable : Prop :=
  ∀ (w : Word) (x y : Reg) (n : Nibble) (nn : Byte) (nnn : Addr12),
    x.val = w.toNat / 256 % 16 → y.val = w.toNat / 16 % 16 → n.toNat = w.toNat % 16 →
    nn.toNat = w.toNat % 256 → nnn.toNat = w.toNat % 4096 →
    (w.toNat / 4096 = 0x0 → decode w =
      if nn = 0xE0 then .cls (BitVec.ofFin x) else if nn = 0xEE then .ret (BitVec.ofFin x) else .nop0 nnn) ∧
    (w.toNat / 4096 = 0x1 → decode w = .jp nnn) ∧
    (w.toNat / 4096 = 0x2 → decode w = .call nnn) ∧
    (w.toNat / 4096 = 0x3 → decode w = .seImm x nn) ∧
    (w.toNat / 4096 = 0x4 → decode w = .sneImm x nn) ∧
    (w.toNat / 4096 = 0x5 → decode w = .seReg x y n) ∧
    (w.toNat / 4096 = 0x6 → decode w = .ldImm x nn) ∧
    (w.toNat / 4096 = 0x7 → decode w = .addImm x nn) ∧
    (w.toNat / 4096 = 0x8 → decode w =
      if n = 0x0 then .ldReg x y else if n = 0x1 then .orReg x y else if n = 0x2 then .andReg x y
      else if n = 0x3 then .xorReg x y else if n = 0x4 then .addReg x y else if n = 0x5 then .sub x y
      else if n = 0x6 then .shr x y else if n = 0x7 then .subn x y else if n = 0xE then .shl x y else .nop8 nnn) ∧
    (w.toNat / 4096 = 0x9 → decode w = .sneReg x y n) ∧
    (w.toNat / 4096 = 0xA → decode w = .ldI nnn) ∧
    (w.toNat / 4096 = 0xB → decode w = .jpV0 nnn) ∧
    (w.toNat / 4096 = 0xC → decode w = .rnd x nn) ∧
    (w.toNat / 4096 = 0xD → decode w = .drw x y n) ∧
    (w.toNat / 4096 = 0xE → decode w = if nn = 0x9E then .skp x else if nn = 0xA1 then .sknp x else .nopE nnn) ∧
    (w.toNat / 4096 = 0xF → decode w =
      if nn = 0x07 then .ldRegDt x else if nn = 0x0A then .ldRegKey x else if nn = 0x15 then .ldDt x
      else if nn = 0x18 then .ldSt x else if nn = 0x1E then .addI x else if nn = 0x29 then .ldFont x
      else if nn = 0x33 then .ldBcd x else if nn = 0x55 then .storeRegs x else if nn = 0x65 then .loadRegs x
      else .nopF nnn)

/-- 30_encoding.md section 4 (which bits a row fixes is the spec's decision D7): the 34 rows do not overlap, a word one
of them selects decodes to that row's instruction, and a word none selects decodes to a no-op. -/
def Obligations.EveryWordSelectsOneRowOrTheNoOp : Prop :=
  ∀ w : Word, opcodeRows.filter (fun row => rowMatches row w) =
    if (decode w).isNoOp then [] else [rowOf (decode w)]

/-- Words of 95_test_vectors.md decode to the instructions they stand for there. -/
def Obligations.SampleWordsDecode : Prop :=
  decode 0x6105 = .ldImm 1 0x05 ∧ decode 0x3105 = .seImm 1 0x05 ∧ decode 0x8014 = .addReg 0 1 ∧
  decode 0x8015 = .sub 0 1 ∧ decode 0xF033 = .ldBcd 0 ∧ decode 0x220A = .call 0x20A ∧ decode 0xD012 = .drw 0 1 2 ∧
  decode 0xE19E = .skp 1 ∧ decode 0x00E0 = .cls 0 ∧ decode 0x0000 = .nop0 0

/-! ### The step: fetch, faults -/

/-- 40_cycle_fetch_dispatch.md section 1 (the fetch bound is the spec's decision D3, log 12): when the two bytes at the
program counter, high byte first, are the word of a well-formed instruction, the step is that instruction's execute
phase in the state whose `ir` holds the word and whose `pc` is the address after it. -/
def Obligations.StepRunsTheDecodedInstruction : Prop :=
  ∀ (s : State) (i : Instr), s.fault = none → s.pc.toNat ≤ 0xFFE → i.wf = true →
    (s.mem.read s.pc.toNat).toNat * 256 + (s.mem.read (s.pc.toNat + 1)).toNat = (encode i).toNat →
    step s = exec i { s with ir := encode i, pc := s.pc + 2 }

/-- R60: `ir[15:8] = mem[pc]` and `ir[7:0] = mem[pc+1]` after every cycle that fetches, whatever instruction it ran; and
the image is loaded verbatim, byte `k` at 0x200 + k. (That a fetch at 0xFFE is legal is the spec's decision D3, log 12.) -/
def Obligations.FetchIsBigEndian : Prop :=
  (∀ s : State, s.fault = none → s.pc.toNat ≤ 0xFFE → ∃ t, step s = .next t ∧
    t.ir.toNat / 256 = (s.mem.read s.pc.toNat).toNat ∧ t.ir.toNat % 256 = (s.mem.read (s.pc.toNat + 1)).toNat) ∧
  (∀ (image : List Byte) (s : State), 1 ≤ image.length → image.length ≤ 3584 → ∃ t, perform (.load image) s = .next t ∧
    ∀ k b, image[k]? = some b → t.mem.read (0x200 + k) = b)

/-- R124: every non-control-flow, non-skip instruction advances `pc` by 2, save FX0A while no key is held, which leaves
it where the cycle found it. (That a fetch at 0xFFE is legal is the spec's decision D3, log 12.) -/
def Obligations.ProgramCounterAdvancesByTwo : Prop :=
  ∀ s : State, s.fault = none → s.pc.toNat ≤ 0xFFE → changesFlow (decode s.fetchWord) = false →
    ∃ t, step s = .next t ∧
      ((∀ x, decode s.fetchWord = .ldRegKey x → ∃ k : Key, s.key[k] = true) → t.pc.toNat = s.pc.toNat + 2) ∧
      ((∃ x, decode s.fetchWord = .ldRegKey x) → (∀ k : Key, s.key[k] = false) → t.pc = s.pc)

/-- 60_exceptions.md section 1, FetchOutOfBounds (the bound is the spec's decision D3, the record its D4; logs 4, 12). -/
def Obligations.FetchOutsideMemoryFaults : Prop :=
  ∀ s : State, s.fault = none → 0xFFE < s.pc.toNat →
    step s = .next { s with fault := some ⟨.fetchOutOfBounds, s.pc⟩ }

/-- 60_exceptions.md section 2 (the spec's decisions D4, D22; logs 4, 28): in the faulted state CYCLE and TICK change
nothing, KEY and REDRAW_ACK write their own flag, RESET clears the fault. -/
def Obligations.FaultedMachineIsInert : Prop :=
  ∀ (s : State) (r : FaultRecord), s.fault = some r →
    step s = .next s ∧ perform .tick s = .next s ∧
    (∀ k held, perform (.key k held) s = .next { s with key := s.key.set k held }) ∧
    perform .redrawAck s = .next { s with redraw := false } ∧
    (∃ t, perform .reset s = .next t ∧ t.fault = none)

/-- 60_exceptions.md section 2 (the spec's decision D4): only RESET clears a fault, and only CYCLE raises one. -/
def Obligations.OnlyResetClearsAndOnlyCycleRaises : Prop :=
  ∀ (op : Operation) (s t : State), perform op s = .next t →
    (∀ r, s.fault = some r → op ≠ .reset → t.fault = some r) ∧
    (s.fault = none → op ≠ .cycle → t.fault = none)

/-- 60_exceptions.md section 2 (the spec's decision D5, log 7): the state after a fault is the state before the cycle
except for `fault` and, for an execute-phase fault, `ir` and `pc`. -/
def Obligations.FaultsArePrecise : Prop :=
  ∀ (s t : State) (r : FaultRecord), s.fault = none → step s = .next t → t.fault = some r →
    (r.cause = .fetchOutOfBounds → t = { s with fault := some r }) ∧
    (r.cause ≠ .fetchOutOfBounds → t = { s with fault := some r, ir := s.fetchWord, pc := s.pc + 2 })

/-- 60_exceptions.md section 1 (names and records are the spec's decision D4, the key index D8, the unbounded sum D16;
logs 4, 11, 13): which instruction raises what, when, and no other. -/
def Obligations.InstructionsRaiseExactlyTheirFaults : Prop :=
  ∀ (i : Instr) (s t : State), s.fault = none → exec i s = .next t → t.fault =
    match i with
    | .ret _ => if s.sp = 0 then some ⟨.stackUnderflow, 0⟩ else none
    | .call _ => if s.sp = 16 then some ⟨.stackOverflow, 16⟩ else none
    | .drw _ _ n => if 1 ≤ n.toNat ∧ s.I.toNat + n.toNat - 1 > 0xFFF then
        some ⟨.addressOutOfBounds, BitVec.ofNat 16 (max s.I.toNat 0x1000)⟩ else none
    | .ldBcd _ => if s.I.toNat + 2 > 0xFFF then
        some ⟨.addressOutOfBounds, BitVec.ofNat 16 (max s.I.toNat 0x1000)⟩ else none
    | .storeRegs x | .loadRegs x => if s.I.toNat + x.val > 0xFFF then
        some ⟨.addressOutOfBounds, BitVec.ofNat 16 (max s.I.toNat 0x1000)⟩ else none
    | .skp x | .sknp x => if s.V[x].toNat > 15 then
        some ⟨.keyIndexOutOfRange, BitVec.ofNat 16 s.V[x].toNat⟩ else none
    | _ => none

/-- 20_memory.md section 5 (the spec's decisions D5, D16; log 13): a transfer that reaches outside memory raises with
the lowest offending address and performs none of its writes. -/
def Obligations.TransfersOutsideMemoryWriteNothing : Prop :=
  ∀ s : State,
    (∀ x y n, 1 ≤ n.toNat → s.I.toNat + n.toNat - 1 > 0xFFF → exec (.drw x y n) s =
      .next { s with fault := some ⟨.addressOutOfBounds, BitVec.ofNat 16 (max s.I.toNat 0x1000)⟩ }) ∧
    (∀ x, s.I.toNat + 2 > 0xFFF → exec (.ldBcd x) s =
      .next { s with fault := some ⟨.addressOutOfBounds, BitVec.ofNat 16 (max s.I.toNat 0x1000)⟩ }) ∧
    (∀ x : Reg, s.I.toNat + x.val > 0xFFF → exec (.storeRegs x) s =
      .next { s with fault := some ⟨.addressOutOfBounds, BitVec.ofNat 16 (max s.I.toNat 0x1000)⟩ }) ∧
    (∀ x : Reg, s.I.toNat + x.val > 0xFFF → exec (.loadRegs x) s =
      .next { s with fault := some ⟨.addressOutOfBounds, BitVec.ofNat 16 (max s.I.toNat 0x1000)⟩ })

/-! ### Reset and the host's operations -/

/-- R42, the table of values after RESET, of a machine with whatever parameters (R10) and from whatever state: of the font,
that its bytes are `FONT[0..79]`; of the random source nothing: the draw counter is the model's own (logs 1, 26).
`State.reset` is that state with the default parameters (log 30). -/
def Obligations.ResetLeavesTheTabulatedValues : Prop :=
  (∀ p : Config.Params,
    (∀ a : Fin 80, (State.resetWith p).mem.read a.val = p.font[a]) ∧
    (∀ a, 80 ≤ a → a < 4096 → (State.resetWith p).mem.read a = 0) ∧
    (∀ x : Reg, (State.resetWith p).V[x] = 0) ∧ (State.resetWith p).I = 0 ∧ (State.resetWith p).pc = 0x200 ∧
    (∀ k : Fin 16, (State.resetWith p).stack[k] = 0) ∧ (State.resetWith p).sp = 0 ∧
    (State.resetWith p).DT = 0 ∧ (State.resetWith p).ST = 0 ∧ (∀ k : Key, (State.resetWith p).key[k] = false) ∧
    (∀ i : Fin 2048, (State.resetWith p).px.pixel i = false) ∧ (State.resetWith p).redraw = true ∧
    (State.resetWith p).ir = 0 ∧ (State.resetWith p).fault = none) ∧
  (∀ s : State, ∃ t, perform .reset s = .next t ∧ t = { State.resetWith s.params with drawCount := t.drawCount }) ∧
  State.reset = State.resetWith Config.defaults

/-- R10 and R41: the font and the option of FX55 and FX65 are parameters, no state: a machine can be built with any values
of them, and no instruction, no step and no operation of the host, RESET included, changes them (that they travel with
the state is the model's, log 30). -/
def Obligations.ParametersNeverChange : Prop :=
  (∀ p : Config.Params, (State.resetWith p).params = p) ∧
  (∀ (i : Instr) (s t : State), exec i s = .next t → t.params = s.params) ∧
  (∀ (op : Operation) (s t : State), perform op s = .next t → t.params = s.params)

/-- 47_host_operations.md, TICK (a separate operation by the spec's decision D2, inert when faulted by D22): each timer
counts down by one to a floor of 0, on its own, and nothing else changes. -/
def Obligations.TickCountsBothTimersDownToZero : Prop :=
  ∀ s : State, s.fault = none → ∃ t, perform .tick s = .next t ∧
    t.DT.toNat = s.DT.toNat - 1 ∧ t.ST.toNat = s.ST.toNat - 1 ∧ t = { s with DT := t.DT, ST := t.ST }

/-- 47_host_operations.md, KEY and REDRAW_ACK (atomic operations by the spec's decision D21): KEY writes one key's flag, REDRAW_ACK clears `redraw`, and nothing else changes. -/
def Obligations.KeyAndRedrawAckWriteTheirFlag : Prop :=
  ∀ s : State,
    (∀ (k : Key) (held : Bool), ∃ t, perform (.key k held) s = .next t ∧ t.key[k] = held ∧
      (∀ j : Key, j ≠ k → t.key[j] = s.key[j]) ∧ t = { s with key := t.key }) ∧
    perform .redrawAck s = .next { s with redraw := false }

/-- 47_host_operations.md, LOAD (the spec's decision D18; log 25): the image stands at 0x200, every other byte and every
other piece of state is unchanged; an empty or oversized image is not admitted. -/
def Obligations.LoadWritesTheImageAndNothingElse : Prop :=
  ∀ (image : List Byte) (s : State),
    (1 ≤ image.length → image.length ≤ 3584 → ∃ t, perform (.load image) s = .next t ∧
      (∀ k b, image[k]? = some b → t.mem.read (0x200 + k) = b) ∧
      (∀ a, a < 0x200 ∨ 0x200 + image.length ≤ a → t.mem.read a = s.mem.read a) ∧ t = { s with mem := t.mem }) ∧
    (image.length = 0 ∨ 3584 < image.length → perform (.load image) s = .refused .imageSizeNotAdmitted)

/-- 70_reset_and_hazards.md section 2: without LOAD, whatever the parameters, 1792 no-op cycles bring `pc` to 0x1000, and the
1793rd raises. -/
def Obligations.ResetWithoutLoadFaultsAtCycle1793 : Prop :=
  ∀ p : Config.Params,
    Sys2Proof.core.run 1792 (State.resetWith p) = .next { State.resetWith p with pc := 0x1000 } ∧
    Sys2Proof.core.run 1793 (State.resetWith p) =
      .next { State.resetWith p with pc := 0x1000, fault := some ⟨.fetchOutOfBounds, 0x1000⟩ }

/-! ### Control flow and clear display -/

/-- 41_control_flow.md, 00E0 (the ignored nibble is the spec's decision D7, the unconditional `redraw` its D15; logs 9,
16): every cell 0, `redraw` set, VF and all else unchanged. -/
def Obligations.ClearDisplayClearsEveryCell : Prop :=
  (∀ w : Word, w &&& 0xF0FF = 0x00E0 → decode w = .cls (ignHighField w)) ∧
  ∀ (ign : Nibble) (s : State), ∃ t, exec (.cls ign) s = .next t ∧ (∀ i, t.px.pixel i = false) ∧ t.redraw = true ∧
    t = { s with px := t.px, redraw := true }

/-- 41_control_flow.md, 00EE (the ignored nibble is the spec's decision D7, the fault record's form its D4; logs 4, 9): with
an entry in use, `sp` goes down and `pc` is the entry popped, which stays; with none, StackUnderflow and nothing else. -/
def Obligations.ReturnPopsTheStack : Prop :=
  (∀ w : Word, w &&& 0xF0FF = 0x00EE → decode w = .ret (ignHighField w)) ∧
  ∀ (ign : Nibble) (s : State),
    (∀ k : Fin 16, s.sp = k.succ → exec (.ret ign) s = .next { s with sp := k.castSucc, pc := s.stack[k] }) ∧
    (s.sp = 0 → exec (.ret ign) s = .next { s with fault := some ⟨.stackUnderflow, 0⟩ })

/-- R142. -/
def Obligations.JumpSetsProgramCounter : Prop :=
  (∀ w : Word, w &&& 0xF000 = 0x1000 → decode w = .jp (nnnField w)) ∧
  ∀ (nnn : Addr12) (s : State), exec (.jp nnn) s = .next { s with pc := BitVec.ofNat 16 nnn.toNat }

/-- 41_control_flow.md, 2NNN (the fault record's form is the spec's decision D4, log 4): fewer than sixteen entries in
use, the advanced `pc` is pushed and `pc` is `NNN`; sixteen, StackOverflow and nothing else. -/
def Obligations.CallPushesAndJumps : Prop :=
  (∀ w : Word, w &&& 0xF000 = 0x2000 → decode w = .call (nnnField w)) ∧
  ∀ (nnn : Addr12) (s : State),
    (∀ k : Fin 16, s.sp = k.castSucc → exec (.call nnn) s =
      .next { s with stack := s.stack.set k s.pc, sp := k.succ, pc := BitVec.ofNat 16 nnn.toNat }) ∧
    (s.sp = 16 → exec (.call nnn) s = .next { s with fault := some ⟨.stackOverflow, 16⟩ })

/-- 41_control_flow.md, 2NNN and 00EE together: the matching return, executed anywhere with the stack as the call left
it, comes back to the instruction after the call, and the stack is empty of the entry. -/
def Obligations.ReturnComesBackToTheCall : Prop :=
  ∀ (nnn : Addr12) (ign : Nibble) (s t u : State), s.sp.val < 16 → exec (.call nnn) s = .next t →
    u.stack = t.stack → u.sp = t.sp → ∃ v, exec (.ret ign) u = .next v ∧ v.pc = s.pc ∧ v.sp = s.sp

/-- R144 and R145. -/
def Obligations.SkipsOnImmediate : Prop :=
  (∀ w : Word, w &&& 0xF000 = 0x3000 → decode w = .seImm (xField w) (nnField w)) ∧
  (∀ w : Word, w &&& 0xF000 = 0x4000 → decode w = .sneImm (xField w) (nnField w)) ∧
  ∀ (x : Reg) (nn : Byte) (s : State),
    exec (.seImm x nn) s = .next { s with pc := if s.V[x] = nn then s.pc + 2 else s.pc } ∧
    exec (.sneImm x nn) s = .next { s with pc := if s.V[x] ≠ nn then s.pc + 2 else s.pc }

/-- 41_control_flow.md, 5XY0 and 9XY0, whatever the low nibble (the spec's decision D7, log 9). -/
def Obligations.SkipsOnRegisters : Prop :=
  ∀ (x y : Reg) (ign : Nibble) (s : State),
    exec (.seReg x y ign) s = .next { s with pc := if s.V[x] = s.V[y] then s.pc + 2 else s.pc } ∧
    exec (.sneReg x y ign) s = .next { s with pc := if s.V[x] ≠ s.V[y] then s.pc + 2 else s.pc }

/-- R148: the register is V0, whatever `NNN` is, and the sum is not reduced modulo 4096. -/
def Obligations.JumpWithOffsetAddsV0 : Prop :=
  (∀ w : Word, w &&& 0xF000 = 0xB000 → decode w = .jpV0 (nnnField w)) ∧
  ∀ (nnn : Addr12) (s : State), ∃ t, exec (.jpV0 nnn) s = .next t ∧
    t.pc.toNat = s.V[(0 : Reg)].toNat + nnn.toNat ∧ t = { s with pc := t.pc }

/-! ### Immediate loads -/

/-- R160. -/
def Obligations.LoadImmediateSetsRegister : Prop :=
  (∀ w : Word, w &&& 0xF000 = 0x6000 → decode w = .ldImm (xField w) (nnField w)) ∧
  ∀ (x : Reg) (nn : Byte) (s : State), exec (.ldImm x nn) s = .next { s with V := s.V.set x nn }

/-- 42_immediate_and_index.md, 7XNN and ANNN: the meanings the spec supplies from general knowledge (its decision D12,
G3, G4; log 8). 7XNN wraps modulo 256 and leaves VF unless it is the destination. -/
def Obligations.AddImmediateAndLoadIndex : Prop :=
  ∀ s : State,
    (∀ (x : Reg) (nn : Byte), exec (.addImm x nn) s =
      .next { s with V := s.V.set x (BitVec.ofNat 8 ((s.V[x].toNat + nn.toNat) % 256)) }) ∧
    (∀ nnn : Addr12, exec (.ldI nnn) s = .next { s with I := BitVec.ofNat 16 nnn.toNat })

/-! ### Arithmetic and logic -/

/-- R171 to R174: the result goes to `V[X]`; VF and all else are unchanged unless VF is the destination. -/
def Obligations.CopyAndLogicWriteOnlyTheirDestination : Prop :=
  (∀ w : Word, w &&& 0xF00F = 0x8000 → decode w = .ldReg (xField w) (yField w)) ∧
  (∀ w : Word, w &&& 0xF00F = 0x8001 → decode w = .orReg (xField w) (yField w)) ∧
  (∀ w : Word, w &&& 0xF00F = 0x8002 → decode w = .andReg (xField w) (yField w)) ∧
  (∀ w : Word, w &&& 0xF00F = 0x8003 → decode w = .xorReg (xField w) (yField w)) ∧
  ∀ (x y : Reg) (s : State),
    exec (.ldReg x y) s = .next { s with V := s.V.set x s.V[y] } ∧
    exec (.orReg x y) s = .next { s with V := s.V.set x (s.V[x] ||| s.V[y]) } ∧
    exec (.andReg x y) s = .next { s with V := s.V.set x (s.V[x] &&& s.V[y]) } ∧
    exec (.xorReg x y) s = .next { s with V := s.V.set x (s.V[x] ^^^ s.V[y]) }

/-- 43_arithmetic_logic.md, 8XY4, 8XY5, 8XY7, every X and Y: flag and result come from the operands before the
instruction, VF is written first and `V[X]` second, so that with X = 15 the result stays (the spec's decision D6,
log 6). -/
def Obligations.AddAndSubtractSetFlagThenResult : Prop :=
  ∀ (x y : Reg) (s : State),
    exec (.addReg x y) s = .next { s with
      V := (s.V.set 15 (if s.V[x].toNat + s.V[y].toNat > 255 then 1 else 0)).set x
        (BitVec.ofNat 8 ((s.V[x].toNat + s.V[y].toNat) % 256)) } ∧
    exec (.sub x y) s = .next { s with
      V := (s.V.set 15 (if s.V[x].toNat ≥ s.V[y].toNat then 1 else 0)).set x
        (BitVec.ofInt 8 (((s.V[x].toNat : Int) - s.V[y].toNat) % 256)) } ∧
    exec (.subn x y) s = .next { s with
      V := (s.V.set 15 (if s.V[y].toNat ≥ s.V[x].toNat then 1 else 0)).set x
        (BitVec.ofInt 8 (((s.V[y].toNat : Int) - s.V[x].toNat) % 256)) }

/-- 43_arithmetic_logic.md, 8XY6 and 8XYE, every X and Y: `V[Y]` has no effect, VF is the bit shifted out unless X = 15
(the spec's decision D6, log 6). -/
def Obligations.ShiftsUseOnlyTheirDestination : Prop :=
  ∀ (x y : Reg) (s : State),
    exec (.shr x y) s = .next { s with
      V := (s.V.set 15 (BitVec.ofNat 8 (s.V[x].toNat % 2))).set x (BitVec.ofNat 8 (s.V[x].toNat / 2)) } ∧
    exec (.shl x y) s = .next { s with
      V := (s.V.set 15 (BitVec.ofNat 8 (s.V[x].toNat / 128))).set x (BitVec.ofNat 8 (s.V[x].toNat * 2 % 256)) }

/-- 43_arithmetic_logic.md, the table of 8FYn and 8XFn (the spec's decision D6, log 6): with X = 15 the arithmetic result
overwrites the flag; with Y = 15 and X another register, the old VF is the operand and VF ends holding the flag. -/
def Obligations.FlagRegisterAsOperandOrDestination : Prop :=
  ∀ (r : Reg) (s : State), r ≠ 15 →
    (∃ t, exec (.addReg 15 r) s = .next t ∧ t.V[(15 : Reg)].toNat = (s.V[(15 : Reg)].toNat + s.V[r].toNat) % 256 ∧
      t.V[r] = s.V[r]) ∧
    (∃ t, exec (.addReg r 15) s = .next t ∧
      t.V[(15 : Reg)].toNat = (if s.V[r].toNat + s.V[(15 : Reg)].toNat > 255 then 1 else 0) ∧
      t.V[r].toNat = (s.V[r].toNat + s.V[(15 : Reg)].toNat) % 256) ∧
    (∃ t, exec (.sub r 15) s = .next t ∧
      t.V[(15 : Reg)].toNat = (if s.V[r].toNat ≥ s.V[(15 : Reg)].toNat then 1 else 0) ∧
      t.V[r].toNat = (s.V[r].toNat + 256 - s.V[(15 : Reg)].toNat) % 256) ∧
    (∃ t, exec (.subn r 15) s = .next t ∧
      t.V[(15 : Reg)].toNat = (if s.V[(15 : Reg)].toNat ≥ s.V[r].toNat then 1 else 0) ∧
      t.V[r].toNat = (s.V[(15 : Reg)].toNat + 256 - s.V[r].toNat) % 256) ∧
    (∃ t, exec (.sub 15 15) s = .next t ∧ t.V[(15 : Reg)] = 0) ∧
    (∃ t, exec (.subn 15 15) s = .next t ∧ t.V[(15 : Reg)] = 0)

/-- 43_arithmetic_logic.md, CXNN (the spec's decision D10; log 1): the next byte of the free stream, masked; every bit
that is 0 in `NN` is 0 in the result. The byte drawn is a free value: nothing here depends on what it is. -/
def Obligations.RandomByteIsMasked : Prop :=
  ∀ (x : Reg) (nn : Byte) (s : State), ∃ t, exec (.rnd x nn) s = .next t ∧
    t.V[x] = Config.draw s.drawCount &&& nn ∧ t.V[x] &&& ~~~nn = 0 ∧
    t = { s with V := s.V.set x t.V[x], drawCount := s.drawCount + 1 }

/-! ### Graphics -/

/-- 44_graphics.md section DXYN in the order-free form of R191 (fault bound D5, D16, VF as coordinate D6, redraw D15;
logs 6, 7, 13, 16): every cell under a lit sprite bit is inverted, every other kept; VF tells whether one of them was
lit; `redraw` is set; all else is unchanged. -/
def Obligations.DrawInvertsTheCellsUnderLitBits : Prop :=
  ∀ (x y : Reg) (n : Nibble) (s : State), n = 0 ∨ s.I.toNat + n.toNat - 1 ≤ 0xFFF → ∃ t,
    exec (.drw x y n) s = .next t ∧ t.redraw = true ∧
    (∀ i : Fin 2048, s.spriteLights x y n i.val → t.px.pixel i = !s.px.pixel i) ∧
    (∀ i : Fin 2048, ¬ s.spriteLights x y n i.val → t.px.pixel i = s.px.pixel i) ∧
    ((∃ i : Fin 2048, s.spriteLights x y n i.val ∧ s.px.pixel i = true) → t.V = s.V.set 15 1) ∧
    ((∀ i : Fin 2048, s.spriteLights x y n i.val → s.px.pixel i = false) → t.V = s.V.set 15 0) ∧
    t = { s with V := t.V, px := t.px, redraw := true }

/-- 44_graphics.md, the property of drawing twice at the same coordinates: the buffer is as before the first draw, and
the second draw's VF is 1 iff some cell under a lit bit was 0 before the first. -/
def Obligations.DrawingTwiceRestoresTheBuffer : Prop :=
  ∀ (x y : Reg) (n : Nibble) (s t u : State), n = 0 ∨ s.I.toNat + n.toNat - 1 ≤ 0xFFF →
    exec (.drw x y n) s = .next t → t.V[x] = s.V[x] → t.V[y] = s.V[y] → exec (.drw x y n) t = .next u →
    u.px = s.px ∧
    (u.V[(15 : Reg)] = 1 ↔ ∃ i : Fin 2048, s.spriteLights x y n i.val ∧ s.px.pixel i = false)

/-! ### Keypad -/

/-- 45_keypad.md (the fault above 15 is the spec's decision D8, log 11): the key is the one numbered by the register's
value; exactly one of EX9E and EXA1 skips. -/
def Obligations.KeySkipsTestTheKeyInTheRegister : Prop :=
  ∀ (x : Reg) (s : State),
    (∀ k : Key, s.V[x].toNat = k.val →
      exec (.skp x) s = .next { s with pc := if s.key[k] = true then s.pc + 2 else s.pc } ∧
      exec (.sknp x) s = .next { s with pc := if s.key[k] = false then s.pc + 2 else s.pc }) ∧
    (15 < s.V[x].toNat →
      exec (.skp x) s = .next { s with fault := some ⟨.keyIndexOutOfRange, BitVec.ofNat 16 s.V[x].toNat⟩ } ∧
      exec (.sknp x) s = .next { s with fault := some ⟨.keyIndexOutOfRange, BitVec.ofNat 16 s.V[x].toNat⟩ })

/-! ### Timers, index, memory transfer -/

/-- R210, R212, R213. -/
def Obligations.TimerReadsAndWrites : Prop :=
  (∀ w : Word, w &&& 0xF0FF = 0xF007 → decode w = .ldRegDt (xField w)) ∧
  (∀ w : Word, w &&& 0xF0FF = 0xF015 → decode w = .ldDt (xField w)) ∧
  (∀ w : Word, w &&& 0xF0FF = 0xF018 → decode w = .ldSt (xField w)) ∧
  ∀ (x : Reg) (s : State),
    exec (.ldRegDt x) s = .next { s with V := s.V.set x s.DT } ∧
    exec (.ldDt x) s = .next { s with DT := s.V[x] } ∧
    exec (.ldSt x) s = .next { s with ST := s.V[x] }

/-- 46_timers_memory.md, FX0A (that the lowest held key is stored is the spec's decision D9, log 10). -/
def Obligations.WaitForKeyStoresTheLowestHeldKey : Prop :=
  ∀ (x : Reg) (s : State),
    (∀ k : Key, s.key[k] = true → (∀ j < k, s.key[j] = false) →
      exec (.ldRegKey x) s = .next { s with V := s.V.set x (BitVec.ofNat 8 k.val) }) ∧
    ((∀ k : Key, s.key[k] = false) → exec (.ldRegKey x) s = .next { s with pc := s.pc - 2 })

/-- 60_exceptions.md section 12: while no key is held, a cycle of FX0A changes nothing but `ir`, and KEY ends the wait. -/
def Obligations.WaitingCycleChangesNothingButIr : Prop :=
  ∀ (x : Reg) (s : State), s.fault = none → s.pc.toNat ≤ 0xFFE → decode s.fetchWord = .ldRegKey x →
    (∀ k : Key, s.key[k] = false) →
    step s = .next { s with ir := s.fetchWord } ∧
    ∀ k : Key, ∃ t u, perform (.key k true) s = .next t ∧ step t = .next u ∧
      u.pc.toNat = s.pc.toNat + 2 ∧ u.V[x].toNat = k.val

/-- 46_timers_memory.md, FX1E (the 16-bit wrap is the spec's decision D16): no flag, no fault. -/
def Obligations.AddToIndexWrapsAtSixteenBits : Prop :=
  ∀ (x : Reg) (s : State),
    exec (.addI x) s = .next { s with I := BitVec.ofNat 16 ((s.I.toNat + s.V[x].toNat) % 65536) }

/-- R215. -/
def Obligations.GlyphAddressIsFiveTimesTheLowNibble : Prop :=
  (∀ w : Word, w &&& 0xF0FF = 0xF029 → decode w = .ldFont (xField w)) ∧
  ∀ (x : Reg) (s : State), exec (.ldFont x) s = .next { s with I := BitVec.ofNat 16 (s.V[x].toNat % 16 * 5) }

/-- 46_timers_memory.md, FX33 (the fault before any write is the spec's decision D5, the unbounded sum D16, the record D4;
logs 4, 7, 13): three digits at `I`, `I+1`, `I+2`, every other byte and all other state unchanged; a fault, with nothing
written, iff `I + 2 > 0xFFF`. -/
def Obligations.StoreDecimalDigits : Prop :=
  (∀ w : Word, w &&& 0xF0FF = 0xF033 → decode w = .ldBcd (xField w)) ∧
  ∀ (x : Reg) (s : State),
    (s.I.toNat + 2 ≤ 0xFFF → ∃ t, exec (.ldBcd x) s = .next t ∧
      (t.mem.read s.I.toNat).toNat = s.V[x].toNat / 100 ∧
      (t.mem.read (s.I.toNat + 1)).toNat = s.V[x].toNat / 10 % 10 ∧
      (t.mem.read (s.I.toNat + 2)).toNat = s.V[x].toNat % 10 ∧
      (∀ a, (∀ k < 3, a ≠ effectiveAddress s.I k) → t.mem.read a = s.mem.read a) ∧ t = { s with mem := t.mem }) ∧
    (s.I.toNat + 2 > 0xFFF → exec (.ldBcd x) s =
      .next { s with fault := some ⟨.addressOutOfBounds, BitVec.ofNat 16 (max s.I.toNat 0x1000)⟩ })

/-- 46_timers_memory.md, FX55 (`I` afterwards is as the machine's parameter says, the spec's decision D17, logs 3, 30):
registers 0..X at `I` .. `I+X`, every other byte and all other state unchanged. -/
def Obligations.StoreBlockWritesRegistersInOrder : Prop :=
  ∀ (x : Reg) (s : State), s.I.toNat + x.val ≤ 0xFFF → ∃ t, exec (.storeRegs x) s = .next t ∧
    (∀ k : Reg, k ≤ x → t.mem.read (s.I.toNat + k.val) = s.V[k]) ∧
    (∀ a, (∀ k ≤ x.val, a ≠ effectiveAddress s.I k) → t.mem.read a = s.mem.read a) ∧
    t.I = (if s.blockXferIncrementsI = true then BitVec.ofNat 16 ((s.I.toNat + x.val + 1) % 65536) else s.I) ∧
    t = { s with mem := t.mem, I := t.I }

/-- 46_timers_memory.md, FX65 (`I` afterwards is as the machine's parameter says, the spec's decision D17, logs 3, 30):
registers 0..X from `I` .. `I+X`, registers above X and all other state unchanged. -/
def Obligations.LoadBlockReadsRegistersInOrder : Prop :=
  ∀ (x : Reg) (s : State), s.I.toNat + x.val ≤ 0xFFF → ∃ t, exec (.loadRegs x) s = .next t ∧
    (∀ k : Reg, k ≤ x → t.V[k] = s.mem.read (s.I.toNat + k.val)) ∧
    (∀ k : Reg, x < k → t.V[k] = s.V[k]) ∧
    t.I = (if s.blockXferIncrementsI = true then BitVec.ofNat 16 ((s.I.toNat + x.val + 1) % 65536) else s.I) ∧
    t = { s with V := t.V, I := t.I }

/-- 46_timers_memory.md, the round trip of FX55 and FX65: whatever the registers hold in between, loading from the same
`I` restores what was stored, under either value of the parameter; and a machine without the option leaves `I` as it was
in both (the spec's decision D17, logs 3, 30). -/
def Obligations.StoreThenLoadRestoresRegisters : Prop :=
  ∀ (x : Reg) (s t u : State), s.I.toNat + x.val ≤ 0xFFF → exec (.storeRegs x) s = .next t →
    u.mem = t.mem → u.I = s.I → ∃ v, exec (.loadRegs x) u = .next v ∧
      (∀ k : Reg, k ≤ x → v.V[k] = s.V[k]) ∧ (∀ k : Reg, x < k → v.V[k] = u.V[k]) ∧
      (s.blockXferIncrementsI = false → t.I = s.I) ∧ (u.blockXferIncrementsI = false → v.I = s.I)

/-- 20_memory.md section 7, instruction-fetch coherence: a store by FX55 into the bytes the next cycle fetches is what
that cycle fetches and runs. -/
def Obligations.StoredBytesAreFetchedNext : Prop :=
  ∀ (x k : Reg) (s t : State), s.fault = none → s.I.toNat + x.val ≤ 0xFFF → exec (.storeRegs x) s = .next t →
    (hk : k.val + 1 ≤ x.val) → s.pc.toNat = s.I.toNat + k.val →
    step t = exec (decode (BitVec.ofNat 16 (s.V[k].toNat * 256 + (s.V[k.val + 1]'(by omega)).toNat)))
      { t with ir := BitVec.ofNat 16 (s.V[k].toNat * 256 + (s.V[k.val + 1]'(by omega)).toNat), pc := s.pc + 2 }

/-! ### The no-op -/

/-- R126 (which words it takes in is the spec's decision D7, the legality of a fetch D3; logs 9, 12): the execute phase of a no-op changes nothing, so the cycle leaves `ir = w`, `pc = p + 2` and all else. -/
def Obligations.NoOpOnlyAdvances : Prop :=
  (∀ (rest : Addr12) (s : State), exec (.nop0 rest) s = .next s ∧ exec (.nop8 rest) s = .next s ∧
    exec (.nopE rest) s = .next s ∧ exec (.nopF rest) s = .next s) ∧
  (∀ s : State, s.fault = none → s.pc.toNat ≤ 0xFFE → (∀ row ∈ opcodeRows, s.fetchWord &&& row.1 ≠ row.2) →
    step s = .next { s with ir := s.fetchWord, pc := s.pc + 2 })

/-! ### What instructions leave unchanged -/

/-- 10_state.md, the register access table: no register is written but those the table names for the instruction. -/
def Obligations.RegistersChangeOnlyAsTabulated : Prop :=
  ∀ (i : Instr) (s t : State) (r : Reg), exec i s = .next t → mayWriteReg i r = false → t.V[r] = s.V[r]

/-- 20_memory.md section 3, the memory access table: FX33 and FX55 store, at the effective addresses `I + k`, and no
other instruction changes any byte. -/
def Obligations.MemoryChangesOnlyWhereStored : Prop :=
  ∀ (i : Instr) (s t : State) (a : Nat), exec i s = .next t →
    (∀ x, i = .ldBcd x → ∀ k < 3, a ≠ effectiveAddress s.I k) →
    (∀ x : Reg, i = .storeRegs x → ∀ k ≤ x.val, a ≠ effectiveAddress s.I k) →
    t.mem.read a = s.mem.read a

/-- R193: DXYN and 00E0 are the only writers of `px` and the only setters of `redraw`; the host's operations (RESET
apart, which makes a new machine) write no pixel and REDRAW_ACK clears `redraw`; a draw inside memory never waits. -/
def Obligations.OnlyDrawAndClearTouchTheDisplay : Prop :=
  (∀ (i : Instr) (s t : State), (∀ ign, i ≠ .cls ign) → (∀ x y n, i ≠ .drw x y n) → exec i s = .next t →
    t.px = s.px ∧ t.redraw = s.redraw) ∧
  (∀ (op : Operation) (s t : State), op ≠ .reset → op ≠ .cycle → perform op s = .next t →
    t.px = s.px ∧ (op ≠ .redrawAck → t.redraw = s.redraw) ∧ (op = .redrawAck → t.redraw = false)) ∧
  (∀ (x y : Reg) (n : Nibble) (s : State), s.I.toNat + n.toNat ≤ 0x1000 →
    ∃ t, exec (.drw x y n) s = .next t ∧ t.pc = s.pc ∧ t.fault = s.fault)

/-- 47_host_operations.md, REDRAW_ACK: the core never reads `redraw`. Two states that differ in it alone step alike, so a
host that never acknowledges affects nothing else. -/
def Obligations.RedrawFlagIsNeverRead : Prop :=
  ∀ (s t : State) (b : Bool), step s = .next t → ∃ b', step { s with redraw := b } = .next { t with redraw := b' }

/-- 40_cycle_fetch_dispatch.md section 1 (the separate TICK is the spec's decision D2): CYCLE never writes a key and
touches a timer only through FX15 and FX18. -/
def Obligations.CycleLeavesKeysAndTimers : Prop :=
  ∀ s t : State, step s = .next t →
    t.key = s.key ∧
    ((∀ x, decode s.fetchWord ≠ .ldDt x) → t.DT = s.DT) ∧
    ((∀ x, decode s.fetchWord ≠ .ldSt x) → t.ST = s.ST)

/-- 10_state.md section 1, the writers of `stack`, `sp` and `I`: only 2NNN writes the stack, only 2NNN and 00EE move
`sp`, only ANNN, FX1E, FX29 write `I` (and FX55 and FX65 of a machine with the option, logs 3, 30); `ir` is the fetch's
alone. -/
def Obligations.StackAndIndexChangeOnlyAsTabulated : Prop :=
  ∀ (i : Instr) (s t : State), exec i s = .next t →
    ((∀ nnn, i ≠ .call nnn) → t.stack = s.stack) ∧
    ((∀ nnn, i ≠ .call nnn) → (∀ ign, i ≠ .ret ign) → t.sp = s.sp) ∧
    ((∀ nnn, i ≠ .ldI nnn) → (∀ x, i ≠ .addI x) → (∀ x, i ≠ .ldFont x) →
      ((∃ x, i = .storeRegs x ∨ i = .loadRegs x) → s.blockXferIncrementsI = false) → t.I = s.I) ∧
    t.ir = s.ir

/-! ### Invariants -/

/-- 20_memory.md sections 4 and 5: from every state whose memory is in canonical form (addresses strictly rising, inside
the 4096-byte space, no entry equal to its reset contents), a step, and every other operation, leaves it so. -/
def Obligations.MemoryStaysCanonical : Prop :=
  (∀ s t : State, s.mem.wf = true → step s = .next t → t.mem.wf = true) ∧
  (∀ (op : Operation) (s t : State), s.mem.wf = true → perform op s = .next t → t.mem.wf = true)

/-- 10_state.md, the range of `pc`, and 60_exceptions.md section 1, the recorded information: from every state with
`pc <= 0x10FE`, stack entries at most 0x1000 and an admissible fault record, a step, and every
other operation, leaves such a state. -/
def Obligations.ProgramCounterAndStackStayInRange : Prop :=
  (∀ s t : State, s.InRange → step s = .next t → t.InRange) ∧
  (∀ (op : Operation) (s t : State), s.InRange → perform op s = .next t → t.InRange)

/-- The invariant holds at reset, whatever the parameters. -/
def Obligations.ResetMeetsTheInvariant : Prop := State.reset.Inv ∧ ∀ p : Config.Params, (State.resetWith p).Inv

/-- 40_cycle_fetch_dispatch.md section 3: in every state that a run of admitted operations reaches, whatever the
parameters and whatever the host interleaves, the invariant holds. -/
def Obligations.EveryReachableStateMeetsTheInvariant : Prop :=
  ∀ (ph : Phase) (s : State), Reachable ph s → s.Inv
end

