-- ==== Sys2Proof/Laws/Decode.lean ====
section
/-!
SUPPORT. The fields of a word built from its format (R91, R92), and the two bytes of a word (R60).
-/

namespace Sys2Proof

/-! ### Parts of a concatenation -/

theorem extract_high {m n : Nat} (a : BitVec m) (b : BitVec n) : (a ++ b).extractLsb' n m = a := by
  ext i hi
  simp [BitVec.getLsbD_append, BitVec.getLsbD_eq_getElem hi]

theorem extract_low {m n : Nat} (a : BitVec m) (b : BitVec n) (start len : Nat) (h : start + len ≤ n) :
    (a ++ b).extractLsb' start len = b.extractLsb' start len := by
  ext i hi
  have : start + i < n := by omega
  simp [BitVec.getLsbD_append, this]

theorem extract_all {n : Nat} (b : BitVec n) : b.extractLsb' 0 n = b := by simp

/-- A field that a row's mask covers is the row's own (R96): from `w &&& mask = m`, the field of `w` is that of `m`. -/
theorem field_of_mask {w mask m : Word} (start len : Nat) (h : w &&& mask = m)
    (covered : mask.extractLsb' start len = BitVec.allOnes len) :
    w.extractLsb' start len = m.extractLsb' start len := by
  rw [← h]
  ext i hi
  have := congrArg (fun b => b.getLsbD i) covered
  simp only [BitVec.getLsbD_extractLsb', hi, decide_true, Bool.true_and, BitVec.getLsbD_allOnes] at this
  simp [this]

/-! ### Format A -/

@[simp] theorem opField_formatA (op : Nibble) (nnn : Addr12) : opField (formatA op nnn) = op :=
  extract_high op nnn

@[simp] theorem nnnField_formatA (op : Nibble) (nnn : Addr12) : nnnField (formatA op nnn) = nnn :=
  (extract_low op nnn 0 12 (by decide)).trans (extract_all nnn)

theorem nnField_formatA (op : Nibble) (nnn : Addr12) : nnField (formatA op nnn) = keyByte nnn :=
  extract_low op nnn 0 8 (by decide)

theorem nField_formatA (op : Nibble) (nnn : Addr12) : nField (formatA op nnn) = keyNibble nnn :=
  extract_low op nnn 0 4 (by decide)

/-! ### Format RI is format A with the twelve bits in two parts -/

theorem formatRI_eq (op x : Nibble) (nn : Byte) : formatRI op x nn = formatA op (x ++ nn) := rfl

@[simp] theorem opField_formatRI (op x : Nibble) (nn : Byte) : opField (formatRI op x nn) = op :=
  extract_high op (x ++ nn)

@[simp] theorem ignHighField_formatRI (op x : Nibble) (nn : Byte) : ignHighField (formatRI op x nn) = x :=
  (extract_low op (x ++ nn) 8 4 (by decide)).trans (extract_high x nn)

@[simp] theorem xField_formatRI (op : Nibble) (x : Reg) (nn : Byte) : xField (formatRI op (regBits x) nn) = x :=
  congrArg BitVec.toFin (ignHighField_formatRI op (regBits x) nn)

@[simp] theorem nnField_formatRI (op x : Nibble) (nn : Byte) : nnField (formatRI op x nn) = nn :=
  (extract_low op (x ++ nn) 0 8 (by decide)).trans ((extract_low x nn 0 8 (by decide)).trans (extract_all nn))

/-! ### Format RR is format RI with the byte in two parts -/

theorem formatRR_eq (op x y n : Nibble) : formatRR op x y n = formatRI op x (y ++ n) := rfl

@[simp] theorem opField_formatRR (op x y n : Nibble) : opField (formatRR op x y n) = op := opField_formatRI op x (y ++ n)

@[simp] theorem xField_formatRR (op : Nibble) (x : Reg) (y n : Nibble) : xField (formatRR op (regBits x) y n) = x :=
  xField_formatRI op x (y ++ n)

@[simp] theorem yField_formatRR (op x : Nibble) (y : Reg) (n : Nibble) : yField (formatRR op x (regBits y) n) = y :=
  congrArg BitVec.toFin ((extract_low op (x ++ (regBits y ++ n)) 4 4 (by decide)).trans
    ((extract_low x (regBits y ++ n) 4 4 (by decide)).trans (extract_high (regBits y) n)))

@[simp] theorem nField_formatRR (op x y n : Nibble) : nField (formatRR op x y n) = n :=
  (extract_low op (x ++ (y ++ n)) 0 4 (by decide)).trans ((extract_low x (y ++ n) 0 4 (by decide)).trans
    ((extract_low y n 0 4 (by decide)).trans (extract_all n)))

/-! ### Bytes of a word -/

/-- A word is its two bytes, joined big-endian. -/
@[simp] theorem joinBytes_bytes (w : Word) : joinBytes (highByte w) (lowByte w) = w := by
  show (w.extractLsb' 8 8 ++ w.extractLsb' 0 8 : BitVec (8 + 8)) = w
  ext i hi
  rw [BitVec.getElem_append]
  split
  · simp [BitVec.getLsbD_eq_getElem (show i < 16 from hi)]
  · simp [show 8 + (i - 8) = i by omega, BitVec.getLsbD_eq_getElem (show i < 16 from hi)]

/-- The value of a big-endian word. -/
theorem joinBytes_toNat (hi lo : Byte) : (joinBytes hi lo).toNat = hi.toNat * 256 + lo.toNat := by
  show (hi ++ lo : BitVec (8 + 8)).toNat = _
  rw [BitVec.toNat_append, Nat.shiftLeft_eq, Nat.mul_comm, ← Nat.two_pow_add_eq_or_of_lt lo.isLt]

@[simp] theorem highByte_joinBytes (hi lo : Byte) : highByte (joinBytes hi lo) = hi := extract_high hi lo

@[simp] theorem lowByte_joinBytes (hi lo : Byte) : lowByte (joinBytes hi lo) = lo :=
  (extract_low hi lo 0 8 (by decide)).trans (extract_all lo)

/-- The bytes of a word decode to the word's instruction. -/
theorem decodeBytes_bytes (w : Word) (rest : List Byte) :
    decodeBytes (highByte w :: lowByte w :: rest) = .ok (decode w, rest) := by
  simp [decodeBytes]

/-- The decoder reads a table word's instruction. -/
theorem decodeTableWord_eq (nbits w : Nat) : decodeTableWord nbits w = some (decode (tableWord nbits w)) := by
  simp [decodeTableWord, decodeBytes]

end Sys2Proof
end

