-- ==== Sys2Proof/Laws/Flags.lean ====
section
/-!
SUPPORT. What each flag computation and each operand form is, in the arithmetic of the rules.
-/

namespace Sys2Proof.Machine

theorem flagByte_carryFlag (vx vy : Byte) :
    flagByte (carryFlag vx vy) = if vx.toNat + vy.toNat > 255 then 1 else 0 := by
  simp only [carryFlag, flagByte, decide_eq_true_eq]

theorem flagByte_noBorrowFlag (a b : Byte) : flagByte (noBorrowFlag a b) = if a.toNat ≥ b.toNat then 1 else 0 := by
  simp only [noBorrowFlag, flagByte, decide_eq_true_eq]

theorem flagByte_shiftRightFlag (vx : Byte) : flagByte (shiftRightFlag vx) = BitVec.ofNat 8 (vx.toNat % 2) := by
  revert vx; decide +kernel

theorem flagByte_shiftLeftFlag (vx : Byte) : flagByte (shiftLeftFlag vx) = BitVec.ofNat 8 (vx.toNat / 128) := by
  revert vx; decide +kernel

@[simp] theorem widen_toNat (b : Byte) : (widen b).toNat = b.toNat := by
  simp only [widen, BitVec.toNat_setWidth]
  omega

@[simp] theorem immediateAddress_toNat (nnn : Addr12) : (immediateAddress nnn).toNat = nnn.toNat := by
  simp only [immediateAddress, BitVec.toNat_setWidth]
  omega

theorem widen_eq_ofNat (b : Byte) : widen b = BitVec.ofNat 16 b.toNat := by
  apply BitVec.eq_of_toNat_eq
  rw [widen_toNat, BitVec.toNat_ofNat]
  omega

theorem immediateAddress_eq_ofNat (nnn : Addr12) : immediateAddress nnn = BitVec.ofNat 16 nnn.toNat := by
  apply BitVec.eq_of_toNat_eq
  rw [immediateAddress_toNat, BitVec.toNat_ofNat]
  omega

theorem glyphAddress_toNat (vx : Byte) : (glyphAddress vx).toNat = vx.toNat % 16 * 5 := by
  revert vx; decide +kernel

@[simp] theorem decimalDigits_length (vx : Byte) : (decimalDigits vx).length = 3 := rfl

end Sys2Proof.Machine
end

