-- ==== Sys2Proof/Laws/Graphics.lean ====
section
/-!
SUPPORT. What one toggle, one sprite bit, one sprite row and a whole sprite do to the cells of a frame.
-/

namespace Sys2Proof.Machine

@[simp] theorem Frame.cell_clear (cx : Fin 64) (cy : Fin 32) : Frame.cell (Vector.replicate 32 0) cx cy = false := by
  simp [Frame.cell]

@[simp] theorem Frame.pixel_clear (i : Fin 2048) : Frame.pixel (Vector.replicate 32 0) i = false :=
  Frame.cell_clear _ _

/-- A toggle inverts its cell. -/
@[simp] theorem Frame.cell_toggle_same (p : Frame) (cx : Fin 64) (cy : Fin 32) :
    (p.toggle cx cy).cell cx cy = !p.cell cx cy := by
  simp [Frame.toggle, Frame.cell]

/-- A toggle leaves every other cell. -/
theorem Frame.cell_toggle_ne (p : Frame) {cx cx' : Fin 64} {cy cy' : Fin 32} (h : cx' ≠ cx ∨ cy' ≠ cy) :
    (p.toggle cx cy).cell cx' cy' = p.cell cx' cy' := by
  by_cases hy : cy' = cy
  · subst hy
    have hx : cx' ≠ cx := by simpa using h
    have hx' : cx'.val ≠ cx.val := fun e => hx (Fin.ext e)
    have : (!decide (cx' < cx) && decide (cx'.val - cx.val = 0)) = false := by
      by_cases hlt : cx' < cx
      · simp [hlt]
      · have : cx'.val - cx.val ≠ 0 := by omega
        simp [this]
    simp [Frame.toggle, Frame.cell, this]
  · have : cy.val ≠ cy'.val := fun e => hy (Fin.ext e.symm)
    simp [Frame.toggle, Frame.cell, this]

theorem Frame.cell_toggle (p : Frame) (cx cx' : Fin 64) (cy cy' : Fin 32) :
    (p.toggle cx cy).cell cx' cy' = (p.cell cx' cy' ^^ decide (cx' = cx ∧ cy' = cy)) := by
  by_cases h : cx' = cx ∧ cy' = cy
  · obtain ⟨rfl, rfl⟩ := h; simp
  · have h' : cx' ≠ cx ∨ cy' ≠ cy := by
      by_cases hx : cx' = cx
      · exact .inr fun hy => h ⟨hx, hy⟩
      · exact .inl hx
    simp [Frame.cell_toggle_ne p h', h]

/-- Everything one sprite bit does to the cells. -/
theorem plotBit_cell (lit : Bool) (cx cx' : Fin 64) (cy cy' : Fin 32) (c : Frame × Bool) :
    (plotBit lit cx cy c).1.cell cx' cy' = (c.1.cell cx' cy' ^^ (lit && decide (cx' = cx ∧ cy' = cy))) := by
  cases lit
  · simp [plotBit]
  · simp [plotBit, Frame.cell_toggle]

/-- Everything one sprite bit does to the collision. -/
theorem plotBit_hit (lit : Bool) (cx : Fin 64) (cy : Fin 32) (c : Frame × Bool) :
    (plotBit lit cx cy c).2 = (c.2 || (lit && c.1.cell cx cy)) := by
  cases lit <;> simp [plotBit]

/-- Two frames with the same cells are the same frame. -/
theorem Frame.ext_cell (p q : Frame) (h : ∀ cx cy, p.cell cx cy = q.cell cx cy) : p = q := by
  apply Vector.ext
  intro r hr
  apply BitVec.eq_of_getLsbD_eq
  intro c hc
  exact h ⟨c, hc⟩ ⟨r, hr⟩

/-- The cell of index `row*64 + col` (R34). -/
theorem Frame.pixel_index (p : Frame) (cx : Fin 64) (cy : Fin 32) :
    p.pixel ⟨cy.val * 64 + cx.val, by omega⟩ = p.cell cx cy := by
  have h1 : (cy.val * 64 + cx.val) % 64 = cx.val := by omega
  have h2 : (cy.val * 64 + cx.val) / 64 = cy.val := by omega
  unfold Frame.pixel
  congr 1
  · exact Fin.ext h1
  · exact Fin.ext h2

/-- The eight columns of a sprite are different (R191). -/
theorem wrapColumn_ne (vx : Byte) {j k : Nat} (hj : j < 8) (hk : k < 8) (h : j ≠ k) :
    wrapColumn vx j ≠ wrapColumn vx k := by
  intro e
  have := congrArg Fin.val e
  simp only [wrapColumn] at this
  omega

/-- The rows of a sprite are different (R191). -/
theorem wrapRow_ne (vy : Byte) {j k : Nat} (hj : j < 32) (hk : k < 32) (h : j ≠ k) :
    wrapRow vy j ≠ wrapRow vy k := by
  intro e
  have := congrArg Fin.val e
  simp only [wrapRow] at this
  omega

/-- Everything one sprite row does: a cell is inverted iff it lies under a lit bit. -/
theorem plotBits_cell (b vx : Byte) (cx : Fin 64) (cy cy' : Fin 32) (left col : Nat) (c : Frame × Bool)
    (hl : col + left ≤ 8) :
    ((∃ k, col ≤ k ∧ k < col + left ∧ b.getLsbD (7 - k) = true ∧ cx = wrapColumn vx k) ∧ cy' = cy →
      (plotBits b vx cy col left c).1.cell cx cy' = !c.1.cell cx cy') ∧
    (¬((∃ k, col ≤ k ∧ k < col + left ∧ b.getLsbD (7 - k) = true ∧ cx = wrapColumn vx k) ∧ cy' = cy) →
      (plotBits b vx cy col left c).1.cell cx cy' = c.1.cell cx cy') := by
  induction left generalizing col c with
  | zero =>
    refine ⟨?_, fun _ => rfl⟩
    rintro ⟨⟨k, h1, h2, _⟩, _⟩
    omega
  | succ left ih =>
    obtain ⟨on, off⟩ := ih (col + 1) (plotBit (b.getLsbD (7 - col)) (wrapColumn vx col) cy c) (by omega)
    rw [plotBits]
    by_cases here : b.getLsbD (7 - col) = true ∧ cx = wrapColumn vx col ∧ cy' = cy
    · obtain ⟨hb, rfl, rfl⟩ := here
      have none : ¬((∃ k, col + 1 ≤ k ∧ k < col + 1 + left ∧ b.getLsbD (7 - k) = true ∧
          wrapColumn vx col = wrapColumn vx k) ∧ cy' = cy') := by
        rintro ⟨⟨k, h1, h2, _, e⟩, _⟩
        exact wrapColumn_ne vx (by omega) (by omega) (by omega) e
      rw [off none, plotBit_cell]
      refine ⟨fun _ => by simp [hb], fun h => absurd ⟨⟨col, le_refl _, by omega, hb, rfl⟩, rfl⟩ h⟩
    · have same : (plotBit (b.getLsbD (7 - col)) (wrapColumn vx col) cy c).1.cell cx cy' = c.1.cell cx cy' := by
        rw [plotBit_cell]
        cases hb : b.getLsbD (7 - col)
        · simp
        · have : ¬(cx = wrapColumn vx col ∧ cy' = cy) := fun h => here ⟨hb, h⟩
          simp [this]
      rw [same] at on off
      constructor
      · rintro ⟨⟨k, h1, h2, h3, e⟩, hy⟩
        have : k ≠ col := by rintro rfl; exact here ⟨h3, e, hy⟩
        exact on ⟨⟨k, by omega, by omega, h3, e⟩, hy⟩
      · intro h
        refine off ?_
        rintro ⟨⟨k, h1, h2, h3⟩, hy⟩
        exact h ⟨⟨k, by omega, by omega, h3⟩, hy⟩

/-- Everything one sprite row does to the collision: it is seen iff a lit bit lies on a lit cell. -/
theorem plotBits_hit (b vx : Byte) (cy : Fin 32) (left col : Nat) (c : Frame × Bool) (hl : col + left ≤ 8) :
    (plotBits b vx cy col left c).2 = true ↔ c.2 = true ∨
      ∃ k, col ≤ k ∧ k < col + left ∧ b.getLsbD (7 - k) = true ∧ c.1.cell (wrapColumn vx k) cy = true := by
  induction left generalizing col c with
  | zero =>
    simp only [plotBits]
    refine ⟨.inl, ?_⟩
    rintro (h | ⟨k, h1, h2, _⟩)
    · exact h
    · omega
  | succ left ih =>
    have keep : ∀ k, col < k → k < col + 1 + left →
        (plotBit (b.getLsbD (7 - col)) (wrapColumn vx col) cy c).1.cell (wrapColumn vx k) cy =
          c.1.cell (wrapColumn vx k) cy := by
      intro k h1 h2
      rw [plotBit_cell]
      simp [wrapColumn_ne vx (by omega : k < 8) (by omega : col < 8) (by omega)]
    rw [plotBits, ih (col + 1) _ (by omega), plotBit_hit]
    simp only [Bool.or_eq_true, Bool.and_eq_true, or_assoc]
    refine or_congr Iff.rfl ?_
    constructor
    · rintro (⟨hb, hc⟩ | ⟨k, h1, h2, h3, h4⟩)
      · exact ⟨col, le_refl _, by omega, hb, hc⟩
      · exact ⟨k, by omega, by omega, h3, keep k (by omega) (by omega) ▸ h4⟩
    · rintro ⟨k, h1, h2, h3, h4⟩
      by_cases e : k = col
      · subst e; exact .inl ⟨h3, h4⟩
      · exact .inr ⟨k, by omega, by omega, h3, (keep k (by omega) (by omega)).symm ▸ h4⟩

/-- Everything a sprite does to the cells: one is inverted iff it lies under a lit bit (R191). -/
theorem plotRows_cell (vx vy : Byte) (cx : Fin 64) (cy : Fin 32) (sprite : List Byte) (row : Nat) (c : Frame × Bool)
    (hl : row + sprite.length ≤ 32) :
    ((∃ r < sprite.length, ∃ k < 8, (sprite.getD r 0).getLsbD (7 - k) = true ∧ cx = wrapColumn vx k ∧
        cy = wrapRow vy (row + r)) → (plotRows vx vy row sprite c).1.cell cx cy = !c.1.cell cx cy) ∧
    ((¬∃ r < sprite.length, ∃ k < 8, (sprite.getD r 0).getLsbD (7 - k) = true ∧ cx = wrapColumn vx k ∧
        cy = wrapRow vy (row + r)) → (plotRows vx vy row sprite c).1.cell cx cy = c.1.cell cx cy) := by
  induction sprite generalizing row c with
  | nil => exact ⟨by rintro ⟨r, hr, _⟩; simp at hr, fun _ => rfl⟩
  | cons b bs ih =>
    simp only [List.length_cons] at hl ⊢
    obtain ⟨on, off⟩ := ih (row + 1) (plotBits b vx (wrapRow vy row) 0 8 c) (by omega)
    obtain ⟨onRow, offRow⟩ := plotBits_cell b vx cx (wrapRow vy row) cy 8 0 c (by omega)
    rw [plotRows]
    by_cases here : (∃ k, 0 ≤ k ∧ k < 0 + 8 ∧ b.getLsbD (7 - k) = true ∧ cx = wrapColumn vx k) ∧ cy = wrapRow vy row
    · rw [onRow here] at on off
      obtain ⟨⟨k, -, hk, hb, hx⟩, rfl⟩ := here
      rw [off]
      · exact ⟨fun _ => rfl, fun h => absurd ⟨0, by omega, k, by omega, by simpa using hb, hx, rfl⟩ h⟩
      · rintro ⟨r, hr, _, _, _, _, e⟩
        exact wrapRow_ne vy (by omega) (by omega) (by omega) e
    · rw [offRow here] at on off
      constructor
      · rintro ⟨r, hr, k, hk, hb, hx, hy⟩
        cases r with
        | zero => exact absurd ⟨⟨k, by omega, by omega, by simpa using hb, hx⟩, hy⟩ here
        | succ r => exact on ⟨r, by omega, k, hk, by simpa using hb, hx, by rw [hy]; congr 1; omega⟩
      · intro h
        refine off ?_
        rintro ⟨r, hr, k, hk, hb, hx, hy⟩
        exact h ⟨r + 1, by omega, k, hk, by simpa using hb, hx, by rw [hy]; congr 1; omega⟩

/-- Everything a sprite does to the collision (R190, R191). -/
theorem plotRows_hit (vx vy : Byte) (sprite : List Byte) (row : Nat) (c : Frame × Bool)
    (hl : row + sprite.length ≤ 32) :
    (plotRows vx vy row sprite c).2 = true ↔ c.2 = true ∨ ∃ r < sprite.length, ∃ k < 8,
      (sprite.getD r 0).getLsbD (7 - k) = true ∧ c.1.cell (wrapColumn vx k) (wrapRow vy (row + r)) = true := by
  induction sprite generalizing row c with
  | nil =>
    refine ⟨.inl, ?_⟩
    rintro (h | ⟨r, hr, _⟩)
    · exact h
    · simp at hr
  | cons b bs ih =>
    simp only [List.length_cons] at hl ⊢
    have keep : ∀ r k, r < bs.length → (plotBits b vx (wrapRow vy row) 0 8 c).1.cell (wrapColumn vx k)
        (wrapRow vy (row + 1 + r)) = c.1.cell (wrapColumn vx k) (wrapRow vy (row + 1 + r)) := by
      intro r k hr
      refine (plotBits_cell b vx _ _ _ 8 0 c (by omega)).2 ?_
      rintro ⟨_, e⟩
      exact wrapRow_ne vy (by omega) (by omega) (by omega) e
    rw [plotRows, ih (row + 1) _ (by omega), plotBits_hit b vx _ 8 0 c (by omega), or_assoc]
    refine or_congr Iff.rfl ?_
    constructor
    · rintro (⟨k, -, hk, hb, hc⟩ | ⟨r, hr, k, hk, hb, hc⟩)
      · exact ⟨0, by omega, k, by omega, by simpa using hb, by simpa using hc⟩
      · rw [keep r k hr] at hc
        exact ⟨r + 1, by omega, k, hk, by simpa using hb, by rwa [show row + (r + 1) = row + 1 + r by omega]⟩
    · rintro ⟨r, hr, k, hk, hb, hc⟩
      cases r with
      | zero => exact .inl ⟨k, by omega, by omega, by simpa using hb, by simpa using hc⟩
      | succ r =>
        refine .inr ⟨r, by omega, k, hk, by simpa using hb, ?_⟩
        rw [keep r k (by omega)]
        rwa [show row + (r + 1) = row + 1 + r by omega] at hc

end Sys2Proof.Machine
end

