-- ==== Sys2Proof/Laws/Memory.lean ====
section
/-!
SUPPORT. The laws of memory: a read after a write, the bytes outside a write, and that every memory operation keeps the
canonical form.
-/

namespace Sys2Proof.Machine

/-! ### Reset contents -/

theorem font_length (font : Config.Font) : font.toList.length = 80 := Vector.length_toList

/-- Below 0x050 a byte's reset contents are the font's (R42). -/
theorem unlistedByte_font (font : Config.Font) (a : Nat) (h : a < 80) : unlistedByte font a = font[a]'h := by
  have hl : a < font.toList.length := by rw [font_length]; exact h
  exact (List.getD_eq_getElem _ _ hl).trans (Vector.getElem_toList hl)

/-- From 0x050 on they are 0 (R42). -/
theorem unlistedByte_zero (font : Config.Font) (a : Nat) (h : 80 ≤ a) : unlistedByte font a = 0 :=
  List.getD_eq_default _ _ (by rw [font_length]; exact h)

/-- Memory with nothing listed reads as its reset contents. -/
@[simp] theorem Memory.read_nil (font : Config.Font) (a : Nat) :
    Memory.read { font := font, cells := [] } a = unlistedByte font a := rfl

/-! ### No operation changes the font a memory was built with -/

@[simp] theorem Memory.write_font (m : Memory) (a : Nat) (b : Byte) : (m.write a b).font = m.font := rfl

@[simp] theorem Memory.writeBlock_font (bs : List Byte) (m : Memory) (base : Nat) :
    (m.writeBlock base bs).font = m.font := by
  induction bs generalizing m base with
  | nil => rfl
  | cons b bs ih => exact ih (m.write base b) (base + 1)

/-! ### Reading after writing -/

theorem readCells_insertCell_same (font : Config.Font) (a : Nat) (b : Byte) (cs : List Host.Cell)
    (h : ∀ c ∈ cs, c.1 ≠ a) : readCells font (insertCell a b cs) a = b := by
  induction cs with
  | nil => simp [insertCell, readCells]
  | cons c cs ih =>
    have hc : c.1 ≠ a := h c (by simp)
    unfold insertCell
    split
    · simp [readCells]
    · simp [readCells, hc, ih fun d hd => h d (by simp [hd])]

theorem readCells_insertCell_ne (font : Config.Font) {a a' : Nat} (b : Byte) (cs : List Host.Cell) (h : a' ≠ a) :
    readCells font (insertCell a b cs) a' = readCells font cs a' := by
  induction cs with
  | nil => simp [insertCell, readCells, h.symm]
  | cons c cs ih =>
    unfold insertCell
    split
    · simp [readCells, h.symm]
    · simp [readCells, ih]

theorem readCells_filter_same (font : Config.Font) (a : Nat) (cs : List Host.Cell) :
    readCells font (cs.filter fun c => c.1 != a) a = unlistedByte font a := by
  induction cs with
  | nil => rfl
  | cons c cs ih =>
    by_cases hc : c.1 = a
    · simp [hc, ih]
    · simp [hc, readCells, ih]

theorem readCells_filter_ne (font : Config.Font) {a a' : Nat} (cs : List Host.Cell) (h : a' ≠ a) :
    readCells font (cs.filter fun c => c.1 != a) a' = readCells font cs a' := by
  induction cs with
  | nil => rfl
  | cons c cs ih =>
    by_cases hc : c.1 = a
    · have : c.1 ≠ a' := by omega
      simp [hc, readCells, ih, h.symm]
    · simp [hc, readCells, ih]

/-- A read after a write to the same address gives the byte written. -/
@[simp] theorem Memory.read_write_same (m : Memory) (a : Nat) (b : Byte) : (m.write a b).read a = b := by
  unfold Memory.write Memory.read
  split
  · next h => simp [readCells_filter_same, h]
  · exact readCells_insertCell_same m.font a b _ (by simp)

/-- A write leaves every other address alone. -/
theorem Memory.read_write_ne (m : Memory) {a a' : Nat} (b : Byte) (h : a' ≠ a) :
    (m.write a b).read a' = m.read a' := by
  unfold Memory.write Memory.read
  split
  · exact readCells_filter_ne m.font m.cells h
  · exact (readCells_insertCell_ne m.font b _ h).trans (readCells_filter_ne m.font m.cells h)

/-! ### Blocks -/

/-- Every byte outside a stored block is unchanged. -/
theorem Memory.read_writeBlock_outside (bs : List Byte) (m : Memory) (base a : Nat)
    (h : a < base ∨ base + bs.length ≤ a) : (m.writeBlock base bs).read a = m.read a := by
  induction bs generalizing m base with
  | nil => rfl
  | cons b bs ih =>
    simp only [List.length_cons] at h
    rw [Memory.writeBlock, ih _ _ (by omega), Memory.read_write_ne _ _ (by omega)]

/-- Byte `k` of a stored block stands at `base + k`. -/
theorem Memory.read_writeBlock_inside (bs : List Byte) (m : Memory) (base k : Nat) (b : Byte) (h : bs[k]? = some b) :
    (m.writeBlock base bs).read (base + k) = b := by
  induction bs generalizing m base k with
  | nil => simp at h
  | cons c bs ih =>
    cases k with
    | zero =>
      simp at h
      rw [Memory.writeBlock, Memory.read_writeBlock_outside _ _ _ _ (by omega)]
      simp [h]
    | succ k =>
      rw [Memory.writeBlock, show base + (k + 1) = base + 1 + k by omega]
      exact ih _ _ _ (by simpa using h)

@[simp] theorem Memory.readBlock_length (m : Memory) (base n : Nat) : (m.readBlock base n).length = n := by
  induction n generalizing base with
  | zero => rfl
  | succ n ih => simp [Memory.readBlock, ih]

/-- Byte `k` of a block read is the byte at `base + k`. -/
theorem Memory.readBlock_getElem? (m : Memory) (base n k : Nat) :
    (m.readBlock base n)[k]? = if k < n then some (m.read (base + k)) else none := by
  induction n generalizing base k with
  | zero => simp [Memory.readBlock]
  | succ n ih =>
    cases k with
    | zero => simp [Memory.readBlock]
    | succ k => simp [Memory.readBlock, ih, show base + 1 + k = base + (k + 1) by omega]

/-! ### The canonical form -/

theorem risesFrom_weaken {lo lo' : Nat} (cs : List Host.Cell) (h : risesFrom lo cs = true) (hl : lo' ≤ lo) :
    risesFrom lo' cs = true := by
  cases cs with
  | nil => rfl
  | cons c cs =>
    simp only [risesFrom, Bool.and_eq_true, decide_eq_true_eq] at h ⊢
    exact ⟨by omega, h.2⟩

theorem risesFrom_filter (lo : Nat) (p : Host.Cell → Bool) (cs : List Host.Cell) (h : risesFrom lo cs = true) :
    risesFrom lo (cs.filter p) = true := by
  induction cs generalizing lo with
  | nil => rfl
  | cons c cs ih =>
    simp only [risesFrom, Bool.and_eq_true, decide_eq_true_eq] at h
    rw [List.filter_cons]
    split
    · simp [risesFrom, h.1, ih _ h.2]
    · exact risesFrom_weaken _ (ih _ h.2) (by omega)

theorem risesFrom_insertCell (lo a : Nat) (b : Byte) (cs : List Host.Cell) (h : risesFrom lo cs = true)
    (hlo : lo ≤ a) (hn : ∀ c ∈ cs, c.1 ≠ a) : risesFrom lo (insertCell a b cs) = true := by
  induction cs generalizing lo with
  | nil => simp [insertCell, risesFrom, hlo]
  | cons c cs ih =>
    simp only [risesFrom, Bool.and_eq_true, decide_eq_true_eq] at h
    have hc : c.1 ≠ a := hn c (by simp)
    unfold insertCell
    split
    · next hlt => simp [risesFrom, hlo, h.2]; omega
    · next hge =>
      simp [risesFrom, h.1]
      exact ih _ h.2 (by omega) fun d hd => hn d (by simp [hd])

theorem all_insertCell (p : Host.Cell → Bool) (a : Nat) (b : Byte) (cs : List Host.Cell) :
    (insertCell a b cs).all p = (p (a, b) && cs.all p) := by
  induction cs with
  | nil => simp [insertCell]
  | cons c cs ih =>
    unfold insertCell
    split
    · simp
    · simp only [List.all_cons, ih]
      cases p c <;> cases p (a, b) <;> rfl

/-- A write inside memory keeps the canonical form. -/
theorem Memory.write_wf (m : Memory) (a : Nat) (b : Byte) (hm : m.wf = true) (ha : a < Config.memSize) :
    (m.write a b).wf = true := by
  simp only [Memory.wf, Bool.and_eq_true] at hm
  have hr := risesFrom_filter 0 (fun c => c.1 != a) m.cells hm.1
  have hall : (m.cells.filter fun c => c.1 != a).all
      (fun c => decide (c.1 < Config.memSize) && c.2 != unlistedByte m.font c.1) = true := by
    rw [List.all_eq_true] at hm ⊢
    exact fun c hc => hm.2 c (List.mem_filter.mp hc).1
  unfold Memory.write
  split
  · simp [Memory.wf, hr, hall]
  · next hb =>
    have hn : ∀ c ∈ m.cells.filter (fun c => c.1 != a), c.1 ≠ a := by simp
    rw [Memory.wf, risesFrom_insertCell 0 a b _ hr (Nat.zero_le _) hn, all_insertCell, hall]
    simp [ha, hb]

/-- A block stored inside memory keeps the canonical form. -/
theorem Memory.writeBlock_wf (bs : List Byte) (m : Memory) (base : Nat) (hm : m.wf = true)
    (h : base + bs.length ≤ Config.memSize) : (m.writeBlock base bs).wf = true := by
  induction bs generalizing m base with
  | nil => exact hm
  | cons b bs ih =>
    simp only [List.length_cons] at h
    exact ih _ _ (Memory.write_wf m base b hm (by omega)) (by omega)

/-- The memory of every machine after RESET is in canonical form. -/
theorem Memory.resetWith_wf (p : Config.Params) : (State.resetWith p).mem.wf = true := rfl

/-- The memory of `State.reset` is in canonical form. -/
theorem Memory.reset_wf : State.reset.mem.wf = true := rfl

/-- Below the least address a canonical list may hold, every byte reads as its reset contents. -/
theorem readCells_below (font : Config.Font) {lo a : Nat} (cs : List Host.Cell) (h : risesFrom lo cs = true)
    (ha : a < lo) : readCells font cs a = unlistedByte font a := by
  induction cs generalizing lo with
  | nil => rfl
  | cons c cs ih =>
    simp only [risesFrom, Bool.and_eq_true, decide_eq_true_eq] at h
    rw [readCells, if_neg (by omega), ih h.2 (by omega)]

/-- Two canonical lists that read alike everywhere over one font are the same list. -/
theorem cells_eq_of_read_eq (font : Config.Font) (lo : Nat) (cs cs' : List Host.Cell) (h : risesFrom lo cs = true)
    (h' : risesFrom lo cs' = true) (hn : ∀ c ∈ cs, c.2 ≠ unlistedByte font c.1)
    (hn' : ∀ c ∈ cs', c.2 ≠ unlistedByte font c.1) (hr : ∀ a, readCells font cs a = readCells font cs' a) :
    cs = cs' := by
  induction cs generalizing lo cs' with
  | nil =>
    cases cs' with
    | nil => rfl
    | cons c cs' =>
      have := hr c.1
      simp [readCells] at this
      exact absurd this.symm (hn' c (by simp))
  | cons c cs ih =>
    simp only [risesFrom, Bool.and_eq_true, decide_eq_true_eq] at h
    cases cs' with
    | nil =>
      have := hr c.1
      simp [readCells] at this
      exact absurd this (hn c (by simp))
    | cons c' cs' =>
      simp only [risesFrom, Bool.and_eq_true, decide_eq_true_eq] at h'
      have hc := hr c.1
      have hc' := hr c'.1
      have key : c.1 = c'.1 := by
        rcases Nat.lt_trichotomy c.1 c'.1 with hlt | heq | hgt
        · simp only [readCells, if_pos, if_neg (show ¬ c'.1 = c.1 by omega)] at hc
          rw [readCells_below font cs' h'.2 (by omega)] at hc
          exact absurd hc (hn c (by simp))
        · exact heq
        · simp only [readCells, if_pos, if_neg (show ¬ c.1 = c'.1 by omega)] at hc'
          rw [readCells_below font cs h.2 (by omega)] at hc'
          exact absurd hc'.symm (hn' c' (by simp))
      have hb : c.2 = c'.2 := by simpa [readCells, key] using hc
      have tail : cs = cs' := by
        refine ih (c.1 + 1) cs' h.2 (key ▸ h'.2) (fun d hd => hn d (by simp [hd])) (fun d hd => hn' d (by simp [hd])) ?_
        intro a
        by_cases ha : a < c.1 + 1
        · rw [readCells_below font cs h.2 ha, readCells_below font cs' (key ▸ h'.2) ha]
        · have := hr a
          rwa [readCells, readCells, if_neg (by omega), if_neg (by omega)] at this
      rw [tail, Prod.ext key hb]

/-- Two canonical memories of one font that read alike everywhere are the same. -/
theorem Memory.wf_ext (m m' : Memory) (hf : m.font = m'.font) (h : m.wf = true) (h' : m'.wf = true)
    (hr : ∀ a, m.read a = m'.read a) : m = m' := by
  obtain ⟨font, cs⟩ := m
  obtain ⟨font', cs'⟩ := m'
  cases hf
  simp only [Memory.wf, Bool.and_eq_true, List.all_eq_true] at h h'
  have := cells_eq_of_read_eq font 0 cs cs' h.1 h'.1 (fun c hc => by simpa using (h.2 c hc).2)
    (fun c hc => by simpa using (h'.2 c hc).2) hr
  rw [this]

end Sys2Proof.Machine
end

