-- ==== Sys2Proof/Laws/State.lean ====
section
/-!
SUPPORT. One lemma per field for each named update of the state, true by rfl; and what reading a register after writing
one gives.
-/

namespace Sys2Proof.Machine

/-! ### setReg -/

@[simp] theorem State.setReg_mem (s : State) (x : Reg) (b : Byte) : (s.setReg x b).mem = s.mem := rfl
@[simp] theorem State.setReg_I (s : State) (x : Reg) (b : Byte) : (s.setReg x b).I = s.I := rfl
@[simp] theorem State.setReg_pc (s : State) (x : Reg) (b : Byte) : (s.setReg x b).pc = s.pc := rfl
@[simp] theorem State.setReg_stack (s : State) (x : Reg) (b : Byte) : (s.setReg x b).stack = s.stack := rfl
@[simp] theorem State.setReg_sp (s : State) (x : Reg) (b : Byte) : (s.setReg x b).sp = s.sp := rfl
@[simp] theorem State.setReg_DT (s : State) (x : Reg) (b : Byte) : (s.setReg x b).DT = s.DT := rfl
@[simp] theorem State.setReg_ST (s : State) (x : Reg) (b : Byte) : (s.setReg x b).ST = s.ST := rfl
@[simp] theorem State.setReg_key (s : State) (x : Reg) (b : Byte) : (s.setReg x b).key = s.key := rfl
@[simp] theorem State.setReg_px (s : State) (x : Reg) (b : Byte) : (s.setReg x b).px = s.px := rfl
@[simp] theorem State.setReg_redraw (s : State) (x : Reg) (b : Byte) : (s.setReg x b).redraw = s.redraw := rfl
@[simp] theorem State.setReg_ir (s : State) (x : Reg) (b : Byte) : (s.setReg x b).ir = s.ir := rfl
@[simp] theorem State.setReg_fault (s : State) (x : Reg) (b : Byte) : (s.setReg x b).fault = s.fault := rfl
@[simp] theorem State.setReg_drawCount (s : State) (x : Reg) (b : Byte) : (s.setReg x b).drawCount = s.drawCount := rfl
@[simp] theorem State.setReg_blockXferIncrementsI (s : State) (x : Reg) (b : Byte) :
    (s.setReg x b).blockXferIncrementsI = s.blockXferIncrementsI := rfl

@[simp] theorem State.reg_setReg_same (s : State) (x : Reg) (b : Byte) : (s.setReg x b).reg x = b := by
  simp [State.setReg, State.reg]

theorem State.reg_setReg_ne (s : State) {x y : Reg} (b : Byte) (h : y ≠ x) : (s.setReg x b).reg y = s.reg y := by
  have : x.val ≠ y.val := fun e => h (Fin.ext e.symm)
  simp [State.setReg, State.reg, this]

theorem State.reg_setReg (s : State) (x y : Reg) (b : Byte) :
    (s.setReg x b).reg y = if y = x then b else s.reg y := by
  by_cases h : y = x
  · subst h; simp
  · simp [h, State.reg_setReg_ne s b h]

/-! ### setFlagThenReg -/

@[simp] theorem State.setFlagThenReg_mem (s : State) (x : Reg) (f : Bool) (b : Byte) :
    (s.setFlagThenReg x f b).mem = s.mem := rfl
@[simp] theorem State.setFlagThenReg_I (s : State) (x : Reg) (f : Bool) (b : Byte) :
    (s.setFlagThenReg x f b).I = s.I := rfl
@[simp] theorem State.setFlagThenReg_pc (s : State) (x : Reg) (f : Bool) (b : Byte) :
    (s.setFlagThenReg x f b).pc = s.pc := rfl
@[simp] theorem State.setFlagThenReg_stack (s : State) (x : Reg) (f : Bool) (b : Byte) :
    (s.setFlagThenReg x f b).stack = s.stack := rfl
@[simp] theorem State.setFlagThenReg_sp (s : State) (x : Reg) (f : Bool) (b : Byte) :
    (s.setFlagThenReg x f b).sp = s.sp := rfl
@[simp] theorem State.setFlagThenReg_DT (s : State) (x : Reg) (f : Bool) (b : Byte) :
    (s.setFlagThenReg x f b).DT = s.DT := rfl
@[simp] theorem State.setFlagThenReg_ST (s : State) (x : Reg) (f : Bool) (b : Byte) :
    (s.setFlagThenReg x f b).ST = s.ST := rfl
@[simp] theorem State.setFlagThenReg_key (s : State) (x : Reg) (f : Bool) (b : Byte) :
    (s.setFlagThenReg x f b).key = s.key := rfl
@[simp] theorem State.setFlagThenReg_px (s : State) (x : Reg) (f : Bool) (b : Byte) :
    (s.setFlagThenReg x f b).px = s.px := rfl
@[simp] theorem State.setFlagThenReg_redraw (s : State) (x : Reg) (f : Bool) (b : Byte) :
    (s.setFlagThenReg x f b).redraw = s.redraw := rfl
@[simp] theorem State.setFlagThenReg_ir (s : State) (x : Reg) (f : Bool) (b : Byte) :
    (s.setFlagThenReg x f b).ir = s.ir := rfl
@[simp] theorem State.setFlagThenReg_fault (s : State) (x : Reg) (f : Bool) (b : Byte) :
    (s.setFlagThenReg x f b).fault = s.fault := rfl
@[simp] theorem State.setFlagThenReg_drawCount (s : State) (x : Reg) (f : Bool) (b : Byte) :
    (s.setFlagThenReg x f b).drawCount = s.drawCount := rfl
@[simp] theorem State.setFlagThenReg_blockXferIncrementsI (s : State) (x : Reg) (f : Bool) (b : Byte) :
    (s.setFlagThenReg x f b).blockXferIncrementsI = s.blockXferIncrementsI := rfl

/-! ### raise -/

@[simp] theorem State.raise_mem (s : State) (f : Fault) (w : Word) : (s.raise f w).mem = s.mem := rfl
@[simp] theorem State.raise_V (s : State) (f : Fault) (w : Word) : (s.raise f w).V = s.V := rfl
@[simp] theorem State.raise_I (s : State) (f : Fault) (w : Word) : (s.raise f w).I = s.I := rfl
@[simp] theorem State.raise_pc (s : State) (f : Fault) (w : Word) : (s.raise f w).pc = s.pc := rfl
@[simp] theorem State.raise_stack (s : State) (f : Fault) (w : Word) : (s.raise f w).stack = s.stack := rfl
@[simp] theorem State.raise_sp (s : State) (f : Fault) (w : Word) : (s.raise f w).sp = s.sp := rfl
@[simp] theorem State.raise_DT (s : State) (f : Fault) (w : Word) : (s.raise f w).DT = s.DT := rfl
@[simp] theorem State.raise_ST (s : State) (f : Fault) (w : Word) : (s.raise f w).ST = s.ST := rfl
@[simp] theorem State.raise_key (s : State) (f : Fault) (w : Word) : (s.raise f w).key = s.key := rfl
@[simp] theorem State.raise_px (s : State) (f : Fault) (w : Word) : (s.raise f w).px = s.px := rfl
@[simp] theorem State.raise_redraw (s : State) (f : Fault) (w : Word) : (s.raise f w).redraw = s.redraw := rfl
@[simp] theorem State.raise_ir (s : State) (f : Fault) (w : Word) : (s.raise f w).ir = s.ir := rfl
@[simp] theorem State.raise_fault (s : State) (f : Fault) (w : Word) : (s.raise f w).fault = some ⟨f, w⟩ := rfl
@[simp] theorem State.raise_drawCount (s : State) (f : Fault) (w : Word) : (s.raise f w).drawCount = s.drawCount := rfl
@[simp] theorem State.raise_blockXferIncrementsI (s : State) (f : Fault) (w : Word) :
    (s.raise f w).blockXferIncrementsI = s.blockXferIncrementsI := rfl
@[simp] theorem State.raise_faulted (s : State) (f : Fault) (w : Word) : (s.raise f w).faulted = true := rfl

/-! ### fetched -/

@[simp] theorem State.fetched_mem (s : State) (w : Word) : (s.fetched w).mem = s.mem := rfl
@[simp] theorem State.fetched_V (s : State) (w : Word) : (s.fetched w).V = s.V := rfl
@[simp] theorem State.fetched_reg (s : State) (w : Word) (x : Reg) : (s.fetched w).reg x = s.reg x := rfl
@[simp] theorem State.fetched_I (s : State) (w : Word) : (s.fetched w).I = s.I := rfl
@[simp] theorem State.fetched_pc (s : State) (w : Word) : (s.fetched w).pc = s.pc + 2 := rfl
@[simp] theorem State.fetched_stack (s : State) (w : Word) : (s.fetched w).stack = s.stack := rfl
@[simp] theorem State.fetched_sp (s : State) (w : Word) : (s.fetched w).sp = s.sp := rfl
@[simp] theorem State.fetched_DT (s : State) (w : Word) : (s.fetched w).DT = s.DT := rfl
@[simp] theorem State.fetched_ST (s : State) (w : Word) : (s.fetched w).ST = s.ST := rfl
@[simp] theorem State.fetched_key (s : State) (w : Word) : (s.fetched w).key = s.key := rfl
@[simp] theorem State.fetched_px (s : State) (w : Word) : (s.fetched w).px = s.px := rfl
@[simp] theorem State.fetched_redraw (s : State) (w : Word) : (s.fetched w).redraw = s.redraw := rfl
@[simp] theorem State.fetched_ir (s : State) (w : Word) : (s.fetched w).ir = w := rfl
@[simp] theorem State.fetched_fault (s : State) (w : Word) : (s.fetched w).fault = s.fault := rfl
@[simp] theorem State.fetched_drawCount (s : State) (w : Word) : (s.fetched w).drawCount = s.drawCount := rfl
@[simp] theorem State.fetched_blockXferIncrementsI (s : State) (w : Word) :
    (s.fetched w).blockXferIncrementsI = s.blockXferIncrementsI := rfl

/-! ### jumpTo -/

@[simp] theorem State.jumpTo_mem (s : State) (a : Word) : (s.jumpTo a).mem = s.mem := rfl
@[simp] theorem State.jumpTo_V (s : State) (a : Word) : (s.jumpTo a).V = s.V := rfl
@[simp] theorem State.jumpTo_I (s : State) (a : Word) : (s.jumpTo a).I = s.I := rfl
@[simp] theorem State.jumpTo_pc (s : State) (a : Word) : (s.jumpTo a).pc = a := rfl
@[simp] theorem State.jumpTo_stack (s : State) (a : Word) : (s.jumpTo a).stack = s.stack := rfl
@[simp] theorem State.jumpTo_sp (s : State) (a : Word) : (s.jumpTo a).sp = s.sp := rfl
@[simp] theorem State.jumpTo_DT (s : State) (a : Word) : (s.jumpTo a).DT = s.DT := rfl
@[simp] theorem State.jumpTo_ST (s : State) (a : Word) : (s.jumpTo a).ST = s.ST := rfl
@[simp] theorem State.jumpTo_key (s : State) (a : Word) : (s.jumpTo a).key = s.key := rfl
@[simp] theorem State.jumpTo_px (s : State) (a : Word) : (s.jumpTo a).px = s.px := rfl
@[simp] theorem State.jumpTo_redraw (s : State) (a : Word) : (s.jumpTo a).redraw = s.redraw := rfl
@[simp] theorem State.jumpTo_ir (s : State) (a : Word) : (s.jumpTo a).ir = s.ir := rfl
@[simp] theorem State.jumpTo_fault (s : State) (a : Word) : (s.jumpTo a).fault = s.fault := rfl
@[simp] theorem State.jumpTo_drawCount (s : State) (a : Word) : (s.jumpTo a).drawCount = s.drawCount := rfl
@[simp] theorem State.jumpTo_blockXferIncrementsI (s : State) (a : Word) :
    (s.jumpTo a).blockXferIncrementsI = s.blockXferIncrementsI := rfl

/-! ### skipIf -/

/-- A skip changes `pc` and nothing else. -/
theorem State.skipIf_eq (s : State) (c : Bool) :
    s.skipIf c = { s with pc := if c then s.pc + 2 else s.pc } := by
  cases c <;> rfl

@[simp] theorem State.skipIf_mem (s : State) (c : Bool) : (s.skipIf c).mem = s.mem := by cases c <;> rfl
@[simp] theorem State.skipIf_V (s : State) (c : Bool) : (s.skipIf c).V = s.V := by cases c <;> rfl
@[simp] theorem State.skipIf_I (s : State) (c : Bool) : (s.skipIf c).I = s.I := by cases c <;> rfl
@[simp] theorem State.skipIf_pc (s : State) (c : Bool) : (s.skipIf c).pc = if c then s.pc + 2 else s.pc := by
  cases c <;> rfl
@[simp] theorem State.skipIf_stack (s : State) (c : Bool) : (s.skipIf c).stack = s.stack := by cases c <;> rfl
@[simp] theorem State.skipIf_sp (s : State) (c : Bool) : (s.skipIf c).sp = s.sp := by cases c <;> rfl
@[simp] theorem State.skipIf_DT (s : State) (c : Bool) : (s.skipIf c).DT = s.DT := by cases c <;> rfl
@[simp] theorem State.skipIf_ST (s : State) (c : Bool) : (s.skipIf c).ST = s.ST := by cases c <;> rfl
@[simp] theorem State.skipIf_key (s : State) (c : Bool) : (s.skipIf c).key = s.key := by cases c <;> rfl
@[simp] theorem State.skipIf_px (s : State) (c : Bool) : (s.skipIf c).px = s.px := by cases c <;> rfl
@[simp] theorem State.skipIf_redraw (s : State) (c : Bool) : (s.skipIf c).redraw = s.redraw := by cases c <;> rfl
@[simp] theorem State.skipIf_ir (s : State) (c : Bool) : (s.skipIf c).ir = s.ir := by cases c <;> rfl
@[simp] theorem State.skipIf_fault (s : State) (c : Bool) : (s.skipIf c).fault = s.fault := by cases c <;> rfl
@[simp] theorem State.skipIf_drawCount (s : State) (c : Bool) : (s.skipIf c).drawCount = s.drawCount := by
  cases c <;> rfl
@[simp] theorem State.skipIf_blockXferIncrementsI (s : State) (c : Bool) :
    (s.skipIf c).blockXferIncrementsI = s.blockXferIncrementsI := by cases c <;> rfl

/-! ### block transfers -/

@[simp] theorem State.storeBlock_mem (s : State) (x : Reg) :
    (s.storeBlock x).mem = s.mem.writeBlock s.I.toNat (s.regsUpTo x) := rfl
@[simp] theorem State.storeBlock_V (s : State) (x : Reg) : (s.storeBlock x).V = s.V := rfl
@[simp] theorem State.storeBlock_I (s : State) (x : Reg) :
    (s.storeBlock x).I = indexAfterBlock s.blockXferIncrementsI s.I x := rfl
@[simp] theorem State.storeBlock_pc (s : State) (x : Reg) : (s.storeBlock x).pc = s.pc := rfl
@[simp] theorem State.storeBlock_stack (s : State) (x : Reg) : (s.storeBlock x).stack = s.stack := rfl
@[simp] theorem State.storeBlock_sp (s : State) (x : Reg) : (s.storeBlock x).sp = s.sp := rfl
@[simp] theorem State.storeBlock_DT (s : State) (x : Reg) : (s.storeBlock x).DT = s.DT := rfl
@[simp] theorem State.storeBlock_ST (s : State) (x : Reg) : (s.storeBlock x).ST = s.ST := rfl
@[simp] theorem State.storeBlock_key (s : State) (x : Reg) : (s.storeBlock x).key = s.key := rfl
@[simp] theorem State.storeBlock_px (s : State) (x : Reg) : (s.storeBlock x).px = s.px := rfl
@[simp] theorem State.storeBlock_redraw (s : State) (x : Reg) : (s.storeBlock x).redraw = s.redraw := rfl
@[simp] theorem State.storeBlock_ir (s : State) (x : Reg) : (s.storeBlock x).ir = s.ir := rfl
@[simp] theorem State.storeBlock_fault (s : State) (x : Reg) : (s.storeBlock x).fault = s.fault := rfl
@[simp] theorem State.storeBlock_drawCount (s : State) (x : Reg) : (s.storeBlock x).drawCount = s.drawCount := rfl
@[simp] theorem State.storeBlock_blockXferIncrementsI (s : State) (x : Reg) :
    (s.storeBlock x).blockXferIncrementsI = s.blockXferIncrementsI := rfl
@[simp] theorem State.loadBlock_mem (s : State) (x : Reg) : (s.loadBlock x).mem = s.mem := rfl
@[simp] theorem State.loadBlock_I (s : State) (x : Reg) :
    (s.loadBlock x).I = indexAfterBlock s.blockXferIncrementsI s.I x := rfl
@[simp] theorem State.loadBlock_pc (s : State) (x : Reg) : (s.loadBlock x).pc = s.pc := rfl
@[simp] theorem State.loadBlock_stack (s : State) (x : Reg) : (s.loadBlock x).stack = s.stack := rfl
@[simp] theorem State.loadBlock_sp (s : State) (x : Reg) : (s.loadBlock x).sp = s.sp := rfl
@[simp] theorem State.loadBlock_DT (s : State) (x : Reg) : (s.loadBlock x).DT = s.DT := rfl
@[simp] theorem State.loadBlock_ST (s : State) (x : Reg) : (s.loadBlock x).ST = s.ST := rfl
@[simp] theorem State.loadBlock_key (s : State) (x : Reg) : (s.loadBlock x).key = s.key := rfl
@[simp] theorem State.loadBlock_px (s : State) (x : Reg) : (s.loadBlock x).px = s.px := rfl
@[simp] theorem State.loadBlock_redraw (s : State) (x : Reg) : (s.loadBlock x).redraw = s.redraw := rfl
@[simp] theorem State.loadBlock_ir (s : State) (x : Reg) : (s.loadBlock x).ir = s.ir := rfl
@[simp] theorem State.loadBlock_fault (s : State) (x : Reg) : (s.loadBlock x).fault = s.fault := rfl
@[simp] theorem State.loadBlock_drawCount (s : State) (x : Reg) : (s.loadBlock x).drawCount = s.drawCount := rfl
@[simp] theorem State.loadBlock_blockXferIncrementsI (s : State) (x : Reg) :
    (s.loadBlock x).blockXferIncrementsI = s.blockXferIncrementsI := rfl
@[simp] theorem indexAfterBlock_false (base : Word) (x : Reg) : indexAfterBlock false base x = base := rfl

/-- FX65 loads the registers up to `x` and leaves those above. -/
theorem State.reg_loadBlock (s : State) (x y : Reg) :
    (s.loadBlock x).reg y = if y ≤ x then s.mem.read (s.I.toNat + y.val) else s.reg y := by
  simp [State.loadBlock, State.reg, effectiveAddress]

/-- FX55 stores register `k` in place `k`. -/
theorem State.regsUpTo_getElem? (s : State) (x : Reg) (k : Nat) :
    (s.regsUpTo x)[k]? = if h : k ≤ x.val then some (s.reg ⟨k, by omega⟩) else none := by
  by_cases h : k ≤ x.val
  · simp [State.regsUpTo, State.reg, h, Nat.lt_succ_of_le h]
  · simp [State.regsUpTo, h]

@[simp] theorem State.regsUpTo_length (s : State) (x : Reg) : (s.regsUpTo x).length = x.val + 1 := by
  simp [State.regsUpTo]

end Sys2Proof.Machine
end

