-- ==== Sys2Proof/Laws/Ops.lean ====
section
/-!
SUPPORT. For each shared operation, once, everything it can do: the call stack, the bounds check of a data transfer, the
key scan and the key skips.
-/

namespace Sys2Proof.Machine

/-! ### The call stack -/

/-- A push succeeds exactly when fewer than sixteen entries are in use. -/
theorem State.push_of_lt (s : State) (a : Word) (h : s.sp.val < 16) :
    s.push a = some { s with stack := s.stack.set s.sp.val a, sp := ⟨s.sp.val + 1, by omega⟩ } := by
  simp [State.push, h]

theorem State.push_of_full (s : State) (a : Word) (h : s.sp.val = 16) : s.push a = none := by
  simp [State.push, h]

/-- Everything a push can do. -/
theorem State.push_cases {s s' : State} {a : Word} (h : s.push a = some s') :
    ∃ hlt : s.sp.val < 16, s' = { s with stack := s.stack.set s.sp.val a, sp := ⟨s.sp.val + 1, by omega⟩ } := by
  unfold State.push at h
  split at h
  · next hlt => exact ⟨hlt, (Option.some.inj h).symm⟩
  · cases h

/-- A pop succeeds exactly when some entry is in use. -/
theorem State.pop_of_pos (s : State) (h : 0 < s.sp.val) :
    s.pop = some (s.stack[s.sp.val - 1], { s with sp := ⟨s.sp.val - 1, by omega⟩ }) := by
  simp [State.pop, h]

theorem State.pop_of_empty (s : State) (h : s.sp.val = 0) : s.pop = none := by
  simp [State.pop, h]

/-- Everything a pop can do. -/
theorem State.pop_cases {s s' : State} {a : Word} (h : s.pop = some (a, s')) :
    ∃ hpos : 0 < s.sp.val, a = s.stack[s.sp.val - 1] ∧ s' = { s with sp := ⟨s.sp.val - 1, by omega⟩ } := by
  unfold State.pop at h
  split at h
  · next hpos =>
    obtain ⟨h1, h2⟩ := Prod.mk.inj (Option.some.inj h)
    exact ⟨hpos, h1.symm, h2.symm⟩
  · cases h

/-! ### Data transfers -/

theorem transferOutOfBounds_iff (base : Word) (count : Nat) :
    transferOutOfBounds base count = true ↔ 1 ≤ count ∧ base.toNat + count - 1 > 0xFFF := by
  unfold transferOutOfBounds effectiveAddress
  rw [decide_eq_true_iff]
  omega

theorem lowestOffending_toNat (base : Word) : (lowestOffending base).toNat = max base.toNat 0x1000 := by
  unfold lowestOffending
  split
  · rw [Nat.max_eq_right (by omega)]; rfl
  · rw [Nat.max_eq_left (by omega)]

theorem lowestOffending_eq_ofNat (base : Word) : lowestOffending base = BitVec.ofNat 16 (max base.toNat 0x1000) := by
  apply BitVec.eq_of_toNat_eq
  rw [lowestOffending_toNat, BitVec.toNat_ofNat]
  omega

theorem State.transfer_of_inBounds (s done : State) (count : Nat)
    (h : count = 0 ∨ s.I.toNat + count ≤ 0x1000) : s.transfer count done = .next done := by
  have : ¬ transferOutOfBounds s.I count = true := by rw [transferOutOfBounds_iff]; omega
  simp [State.transfer, this]

theorem State.transfer_of_outOfBounds (s done : State) (count : Nat)
    (h : 1 ≤ count ∧ s.I.toNat + count > 0x1000) :
    s.transfer count done = .next (s.raise .addressOutOfBounds (lowestOffending s.I)) := by
  have : transferOutOfBounds s.I count = true := by rw [transferOutOfBounds_iff]; omega
  simp [State.transfer, this]

/-- Everything a transfer can do: complete inside memory, or raise with nothing written. -/
theorem State.transfer_cases (s done : State) (count : Nat) :
    ((count = 0 ∨ s.I.toNat + count ≤ 0x1000) ∧ s.transfer count done = .next done) ∨
    ((1 ≤ count ∧ s.I.toNat + count > 0x1000) ∧
      s.transfer count done = .next (s.raise .addressOutOfBounds (lowestOffending s.I))) := by
  by_cases h : count = 0 ∨ s.I.toNat + count ≤ 0x1000
  · exact .inl ⟨h, s.transfer_of_inBounds done count h⟩
  · have h' : 1 ≤ count ∧ s.I.toNat + count > 0x1000 := by omega
    exact .inr ⟨h', s.transfer_of_outOfBounds done count h'⟩

/-! ### Keys -/

/-- The key scan finds the least held key. -/
theorem State.lowestHeldKey_eq_some {s : State} {k : Key} :
    s.lowestHeldKey = some k ↔ s.key[k] = true ∧ ∀ j < k, s.key[j] = false := by
  unfold State.lowestHeldKey
  rw [List.find?_eq_some_iff_getElem]
  constructor
  · rintro ⟨hk, i, hi, rfl, hlt⟩
    refine ⟨by simpa using hk, fun j hj => ?_⟩
    have hj' : j.val < i := by simpa [Fin.lt_def] using hj
    simpa using hlt j.val hj'
  · rintro ⟨hk, hlt⟩
    refine ⟨by simpa using hk, k.val, by simp, by simp, fun j hj => ?_⟩
    simpa using hlt ⟨j, by omega⟩ hj

/-- The key scan finds nothing exactly when no key is held. -/
theorem State.lowestHeldKey_eq_none {s : State} :
    s.lowestHeldKey = none ↔ ∀ k : Key, s.key[k] = false := by
  simp [State.lowestHeldKey]

/-- Everything a key skip can do. -/
theorem State.keySkip_cases (s : State) (x : Reg) (skip : Bool → Bool) :
    (∃ h : (s.reg x).toNat < 16, s.keySkip x skip = .next (s.skipIf (skip s.key[(s.reg x).toNat]))) ∨
    (15 < (s.reg x).toNat ∧ s.keySkip x skip = .next (s.raise .keyIndexOutOfRange (widen (s.reg x)))) := by
  by_cases h : (s.reg x).toNat < 16
  · exact .inl ⟨h, by simp [State.keySkip, h]⟩
  · exact .inr ⟨by omega, by simp [State.keySkip, h]⟩

end Sys2Proof.Machine
end

