-- ==== Sys2Proof/Laws/PerInstr.lean ====
section
/-!
SUPPORT. Statements made per instruction. Family `TableRow`: the word an instruction encodes to is one its row of the
opcode table selects, `w &&& mask = match` (R96, R97).
-/

namespace Sys2Proof.Laws.TableRow

/-- The instruction's word lies in its row of the opcode table. -/
def Statement (i : Instr) : Prop := rowMatches (rowOf i) (encode i) = true

/-- A mask of two parts acts on each part. -/
theorem mask_parts {m n : Nat} {a c a' : BitVec m} {b d b' : BitVec n} (ha : a &&& c = a') (hb : b &&& d = b') :
    (a ++ b) &&& (c ++ d) = a' ++ b' := by
  rw [BitVec.and_append, ha, hb]

theorem keep_nibble (a : Nibble) : a &&& 0xF#4 = a := BitVec.and_allOnes

theorem keep_byte (a : Byte) : a &&& 0xFF#8 = a := BitVec.and_allOnes

/-- Rows with mask 0xF000: only the leading nibble is fixed. -/
theorem of_op (op : Nibble) (rest : Addr12) : formatA op rest &&& 0xF000#16 = op ++ 0#12 :=
  mask_parts (d := 0#12) (keep_nibble op) BitVec.and_zero

/-- Rows with mask 0xF0FF: the leading nibble and the low byte are fixed. -/
theorem of_op_byte (op x : Nibble) (key : Byte) : formatRI op x key &&& 0xF0FF#16 = op ++ (0#4 ++ key) :=
  mask_parts (d := 0#4 ++ 0xFF#8) (keep_nibble op) (mask_parts BitVec.and_zero (keep_byte key))

/-- Rows with mask 0xF00F: the leading and the low nibble are fixed. -/
theorem of_op_nibble (op x y key : Nibble) : formatRR op x y key &&& 0xF00F#16 = op ++ (0#4 ++ (0#4 ++ key)) :=
  mask_parts (d := 0#4 ++ (0#4 ++ 0xF#4)) (keep_nibble op)
    (mask_parts BitVec.and_zero (mask_parts BitVec.and_zero (keep_nibble key)))

theorem row_op (op : Nibble) (rest : Addr12) {m : Word} (h : op ++ 0#12 = m) :
    rowMatches (0xF000, m) (formatA op rest) = true := by
  simpa [rowMatches, of_op op rest] using h

theorem row_op_byte (op x : Nibble) (key : Byte) {m : Word} (h : op ++ (0#4 ++ key) = m) :
    rowMatches (0xF0FF, m) (formatRI op x key) = true := by
  simpa [rowMatches, of_op_byte op x key] using h

theorem row_op_nibble (op x y key : Nibble) {m : Word} (h : op ++ (0#4 ++ (0#4 ++ key)) = m) :
    rowMatches (0xF00F, m) (formatRR op x y key) = true := by
  simpa [rowMatches, of_op_nibble op x y key] using h

theorem cls (ign : Nibble) : Statement (.cls ign) := row_op_byte _ _ _ rfl
theorem ret (ign : Nibble) : Statement (.ret ign) := row_op_byte _ _ _ rfl
theorem jp (nnn : Addr12) : Statement (.jp nnn) := row_op _ _ rfl
theorem call (nnn : Addr12) : Statement (.call nnn) := row_op _ _ rfl
theorem seImm (x : Reg) (nn : Byte) : Statement (.seImm x nn) := row_op _ (regBits x ++ nn) rfl
theorem sneImm (x : Reg) (nn : Byte) : Statement (.sneImm x nn) := row_op _ (regBits x ++ nn) rfl
theorem seReg (x y : Reg) (ign : Nibble) : Statement (.seReg x y ign) := row_op _ (regBits x ++ (regBits y ++ ign)) rfl
theorem ldImm (x : Reg) (nn : Byte) : Statement (.ldImm x nn) := row_op _ (regBits x ++ nn) rfl
theorem addImm (x : Reg) (nn : Byte) : Statement (.addImm x nn) := row_op _ (regBits x ++ nn) rfl
theorem ldReg (x y : Reg) : Statement (.ldReg x y) := row_op_nibble _ _ _ _ rfl
theorem orReg (x y : Reg) : Statement (.orReg x y) := row_op_nibble _ _ _ _ rfl
theorem andReg (x y : Reg) : Statement (.andReg x y) := row_op_nibble _ _ _ _ rfl
theorem xorReg (x y : Reg) : Statement (.xorReg x y) := row_op_nibble _ _ _ _ rfl
theorem addReg (x y : Reg) : Statement (.addReg x y) := row_op_nibble _ _ _ _ rfl
theorem sub (x y : Reg) : Statement (.sub x y) := row_op_nibble _ _ _ _ rfl
theorem shr (x y : Reg) : Statement (.shr x y) := row_op_nibble _ _ _ _ rfl
theorem subn (x y : Reg) : Statement (.subn x y) := row_op_nibble _ _ _ _ rfl
theorem shl (x y : Reg) : Statement (.shl x y) := row_op_nibble _ _ _ _ rfl
theorem sneReg (x y : Reg) (ign : Nibble) : Statement (.sneReg x y ign) :=
  row_op _ (regBits x ++ (regBits y ++ ign)) rfl
theorem ldI (nnn : Addr12) : Statement (.ldI nnn) := row_op _ _ rfl
theorem jpV0 (nnn : Addr12) : Statement (.jpV0 nnn) := row_op _ _ rfl
theorem rnd (x : Reg) (nn : Byte) : Statement (.rnd x nn) := row_op _ (regBits x ++ nn) rfl
theorem drw (x y : Reg) (n : Nibble) : Statement (.drw x y n) := row_op _ (regBits x ++ (regBits y ++ n)) rfl
theorem skp (x : Reg) : Statement (.skp x) := row_op_byte _ _ _ rfl
theorem sknp (x : Reg) : Statement (.sknp x) := row_op_byte _ _ _ rfl
theorem ldRegDt (x : Reg) : Statement (.ldRegDt x) := row_op_byte _ _ _ rfl
theorem ldRegKey (x : Reg) : Statement (.ldRegKey x) := row_op_byte _ _ _ rfl
theorem ldDt (x : Reg) : Statement (.ldDt x) := row_op_byte _ _ _ rfl
theorem ldSt (x : Reg) : Statement (.ldSt x) := row_op_byte _ _ _ rfl
theorem addI (x : Reg) : Statement (.addI x) := row_op_byte _ _ _ rfl
theorem ldFont (x : Reg) : Statement (.ldFont x) := row_op_byte _ _ _ rfl
theorem ldBcd (x : Reg) : Statement (.ldBcd x) := row_op_byte _ _ _ rfl
theorem storeRegs (x : Reg) : Statement (.storeRegs x) := row_op_byte _ _ _ rfl
theorem loadRegs (x : Reg) : Statement (.loadRegs x) := row_op_byte _ _ _ rfl
theorem nop0 (rest : Addr12) : Statement (.nop0 rest) := row_op _ _ rfl
theorem nop8 (rest : Addr12) : Statement (.nop8 rest) := row_op _ _ rfl
theorem nopE (rest : Addr12) : Statement (.nopE rest) := row_op _ _ rfl
theorem nopF (rest : Addr12) : Statement (.nopF rest) := row_op _ _ rfl

end Sys2Proof.Laws.TableRow
end

