-- ==== Sys2Proof/Laws/Step.lean ====
section
/-!
SUPPORT. The three things CYCLE can do (R259), what placing a word does to the fetch, and a run step by step.
-/

namespace Sys2Proof.Machine

theorem cycle_of_faulted (s : State) (h : s.faulted = true) : cycle s = .next s := by
  simp [cycle, h]

theorem cycle_of_canFetch (s : State) (h : s.faulted = false) (hf : s.canFetch = true) :
    cycle s = exec (decode s.fetchWord) (s.fetched s.fetchWord) := by
  simp [cycle, h, hf]

theorem cycle_of_cannotFetch (s : State) (h : s.faulted = false) (hf : s.canFetch = false) :
    cycle s = .next (s.raise .fetchOutOfBounds s.pc) := by
  simp [cycle, h, hf]

/-- Everything a step can do: nothing, when faulted; raise the fetch fault; or execute the fetched instruction. -/
theorem step_cases (s : State) :
    (s.faulted = true ∧ step s = .next s) ∨
    (s.faulted = false ∧ 0xFFE < s.pc.toNat ∧ step s = .next (s.raise .fetchOutOfBounds s.pc)) ∨
    (s.faulted = false ∧ s.pc.toNat ≤ 0xFFE ∧
      step s = exec (decode s.fetchWord) (s.fetched s.fetchWord)) := by
  by_cases h : s.faulted = true
  · exact .inl ⟨h, cycle_of_faulted s h⟩
  · rw [Bool.not_eq_true] at h
    by_cases hf : s.pc.toNat ≤ 0xFFE
    · exact .inr (.inr ⟨h, hf, cycle_of_canFetch s h (by simpa [State.canFetch] using hf)⟩)
    · exact .inr (.inl ⟨h, by omega, cycle_of_cannotFetch s h (by simpa [State.canFetch] using hf)⟩)

theorem State.transfer_total (s done : State) (count : Nat) : ∃ t, s.transfer count done = .next t := by
  rcases s.transfer_cases done count with ⟨_, h⟩ | ⟨_, h⟩ <;> exact ⟨_, h⟩

theorem State.keySkip_total (s : State) (x : Reg) (skip : Bool → Bool) : ∃ t, s.keySkip x skip = .next t := by
  rcases s.keySkip_cases x skip with ⟨_, h⟩ | ⟨_, h⟩ <;> exact ⟨_, h⟩

/-- Every instruction answers a next state: no arm of `exec` faults the model or is refused. -/
theorem exec_total (i : Instr) (s : State) : ∃ t, exec i s = .next t := by
  cases i with
  | ret ign =>
    simp only [exec, execRet]
    split <;> exact ⟨_, rfl⟩
  | call nnn =>
    simp only [exec, execCall]
    split <;> exact ⟨_, rfl⟩
  | drw x y n => exact s.transfer_total _ _
  | skp x => exact s.keySkip_total x fun held => held
  | sknp x => exact s.keySkip_total x fun held => !held
  | ldRegKey x =>
    simp only [exec, execLdRegKey]
    split <;> exact ⟨_, rfl⟩
  | ldBcd x => exact s.transfer_total _ _
  | storeRegs x => exact s.transfer_total _ _
  | loadRegs x => exact s.transfer_total _ _
  | _ => exact ⟨_, rfl⟩

/-- After placing a word, the machine can fetch. -/
theorem placeWord_ready (s : State) (w : Word) : (placeWord s w).faulted = false ∧ (placeWord s w).canFetch = true := by
  refine ⟨rfl, ?_⟩
  by_cases h : s.canFetch = true
  · have : (placeWord s w).pc = s.pc := by simp [placeWord, readyToFetch, h]
    simpa [State.canFetch, this] using h
  · have : (placeWord s w).pc = Config.resetPc := by simp [placeWord, readyToFetch, h]
    rw [State.canFetch, this]
    decide

/-- After placing a word, the fetch reads it. -/
theorem placeWord_fetchWord (s : State) (w : Word) : (placeWord s w).fetchWord = w := by
  unfold placeWord
  simp only [State.fetchWord]
  have h0 := Memory.read_writeBlock_inside [highByte w, lowByte w] (readyToFetch s).mem (readyToFetch s).pc.toNat 0
    (highByte w) rfl
  have h1 := Memory.read_writeBlock_inside [highByte w, lowByte w] (readyToFetch s).mem (readyToFetch s).pc.toNat 1
    (lowByte w) rfl
  rw [Nat.add_zero] at h0
  rw [h0, h1, joinBytes_bytes]

/-- The step after `withFetchWord` runs exactly the word's instruction. -/
theorem step_withFetchWord (s : State) (nbits w : Nat) :
    step (s.withFetchWord nbits w) =
      exec (decode (tableWord nbits w)) ((s.withFetchWord nbits w).fetched (tableWord nbits w)) := by
  have h := placeWord_ready s (tableWord nbits w)
  rw [step, State.withFetchWord, cycle_of_canFetch _ h.1 h.2, placeWord_fetchWord]

/-- A run whose first step gives `t` goes on from `t`. -/
theorem run_succ_of_step (M : Host.Core) {s t : M.State} (k : Nat) (h : M.step s = .next t) :
    M.run (k + 1) s = M.run k t := by
  simp [Host.Core.run, h]

/-- A run that has come to `t` takes its next step from `t`. -/
theorem run_succ_of_run (M : Host.Core) {s t : M.State} (k : Nat) (h : M.run k s = .next t) :
    M.run (k + 1) s = M.step t := by
  induction k generalizing s with
  | zero =>
    cases h
    simp only [Host.Core.run]
    split <;> simp_all
  | succ k ih =>
    rw [Host.Core.run] at h ⊢
    split at h
    · exact ih h
    · cases h
    · cases h

/-- `run_succ_of_step` of this machine. -/
theorem core_run_succ_of_step {s t : State} (k : Nat) (h : step s = .next t) :
    Sys2Proof.core.run (k + 1) s = Sys2Proof.core.run k t :=
  run_succ_of_step Sys2Proof.core (s := s) (t := t) k h

/-- `run_succ_of_run` of this machine. -/
theorem core_run_succ_of_run {s t : State} (k : Nat) (h : Sys2Proof.core.run k s = .next t) :
    Sys2Proof.core.run (k + 1) s = step t :=
  run_succ_of_run Sys2Proof.core (s := s) (t := t) k h

end Sys2Proof.Machine
end

