-- ==== Sys2Proof/Tests/Slice0.lean ====
section
/-!
SUPPORT. The model's own tests: the smoke test of `Instr.wf`, the decoding of a word of every row, the vectors of
95_test_vectors.md (their ids stand in the comments), and for every statement with hypotheses a state and operands that
meet them together, each clause at a boundary of its range.
-/

namespace Sys2Proof.Tests

open Sys2Proof Sys2Proof.Machine

/-! ### Helpers -/

/-- The vectors' start state: reset, with some registers set, `I = 0x300` and `redraw` false. -/
def start (regs : List (Reg × Byte)) : State :=
  { State.reset with V := regs.foldl (fun v r => v.set r.1 r.2) State.reset.V, I := 0x300, redraw := false }

/-- Memory with some bytes written. -/
def bytesAt (base : Nat) (bs : List Byte) : Memory := State.reset.mem.writeBlock base bs

/-- What holds of the state an outcome gives. -/
def holdsAfter (o : Answer) (p : State → Bool) : Bool :=
  match o with
  | .next t => p t
  | .fault _ => false
  | .refused _ => false

/-- The outcome is the next state `t`. -/
def gives (o : Answer) (t : State) : Bool := holdsAfter o fun u => u == t

/-- One CYCLE of a word placed where `s` fetches, and what holds afterwards. -/
def ran (w : Nat) (s : State) (p : State → Bool) : Bool := holdsAfter (step (s.withFetchWord 16 w)) p

/-- `ran` gives a next state, `pc` moved by 2, no fault, and `V` is as said. -/
def ranV (w : Nat) (s : State) (regs : List (Reg × Byte)) : Bool :=
  ran w s fun t => t.V == (start regs).V && t.pc == s.pc + 2 && t.fault == none && t.ir == BitVec.ofNat 16 w

/-- The cells lit in a frame, by index. -/
def lit (p : Frame) : List Nat := ((List.finRange 2048).filter fun i => p.pixel i).map Fin.val

/-- A frame with the named cells lit. -/
def frameOf (cells : List (Fin 64 × Fin 32)) : Frame := cells.foldl (fun p c => p.toggle c.1 c.2) clearFrame

/-- A latch with the named keys held. -/
def held (keys : List Key) : Vector Bool 16 := keys.foldl (fun v k => v.set k.val true) State.reset.key

/-- Parameters other than the defaults. -/
def otherParams : Config.Params := ⟨Vector.replicate 80 0x3C, true⟩

/-! ### Well-formedness refuses an ill-formed term of each check -/

theorem test_wf_nop0 : Instr.wf (.nop0 0x0E0) = false ∧ Instr.wf (.nop0 0x5EE) = false ∧ Instr.wf (.nop0 0x0EF) = true := by
  decide

theorem test_wf_nop8 : Instr.wf (.nop8 0x124) = false ∧ Instr.wf (.nop8 0x12E) = false ∧ Instr.wf (.nop8 0x128) = true := by
  decide

theorem test_wf_nopE : Instr.wf (.nopE 0x19E) = false ∧ Instr.wf (.nopE 0x1A1) = false ∧ Instr.wf (.nopE 0x19F) = true := by
  decide

theorem test_wf_nopF : Instr.wf (.nopF 0x133) = false ∧ Instr.wf (.nopF 0xF65) = false ∧ Instr.wf (.nopF 0x175) = true := by
  decide

/-! ### Decoding: words written out from R92 and R96, every row -/

theorem test_decode_system : decode 0x00E0 = .cls 0 ∧ decode 0x05E0 = .cls 5 ∧ decode 0x00EE = .ret 0 ∧
    decode 0x05EE = .ret 5 ∧ decode 0x0EE0 = .cls 0xE := by decide

theorem test_decode_jumps : decode 0x1204 = .jp 0x204 ∧ decode 0x220A = .call 0x20A ∧ decode 0xB300 = .jpV0 0x300 := by
  decide

theorem test_decode_skips : decode 0x3105 = .seImm 1 0x05 ∧ decode 0x4106 = .sneImm 1 0x06 ∧
    decode 0x523B = .seReg 2 3 0xB ∧ decode 0x9225 = .sneReg 2 2 5 := by decide

theorem test_decode_immediate : decode 0x6105 = .ldImm 1 0x05 ∧ decode 0x710A = .addImm 1 0x0A ∧
    decode 0xA300 = .ldI 0x300 := by decide

theorem test_decode_arithmetic : decode 0x8010 = .ldReg 0 1 ∧ decode 0x8011 = .orReg 0 1 ∧ decode 0x8012 = .andReg 0 1 ∧
    decode 0x8013 = .xorReg 0 1 ∧ decode 0x82F4 = .addReg 2 15 ∧ decode 0x8F15 = .sub 15 1 ∧ decode 0x8016 = .shr 0 1 ∧
    decode 0x8017 = .subn 0 1 ∧ decode 0x801E = .shl 0 1 ∧ decode 0xC10F = .rnd 1 0x0F := by decide

theorem test_decode_graphics_keypad : decode 0xD01F = .drw 0 1 0xF ∧ decode 0xE19E = .skp 1 ∧ decode 0xE1A1 = .sknp 1 := by
  decide

theorem test_decode_timers_memory : decode 0xF207 = .ldRegDt 2 ∧ decode 0xF10A = .ldRegKey 1 ∧ decode 0xF115 = .ldDt 1 ∧
    decode 0xF118 = .ldSt 1 ∧ decode 0xF21E = .addI 2 ∧ decode 0xF029 = .ldFont 0 ∧ decode 0xF033 = .ldBcd 0 ∧
    decode 0xF355 = .storeRegs 3 ∧ decode 0xF365 = .loadRegs 3 := by decide

/-- F9 to F12. -/
theorem test_decode_no_op : decode 0x0123 = .nop0 0x123 ∧ decode 0x0E0E = .nop0 0xE0E ∧ decode 0x8AB9 = .nop8 0xAB9 ∧
    decode 0xE1A0 = .nopE 0x1A0 ∧ decode 0xF185 = .nopF 0x185 := by decide

theorem test_encode_one_per_format : encode (.cls 5) = 0x05E0 ∧ encode (.call 0x20A) = 0x220A ∧
    encode (.ldImm 1 0x05) = 0x6105 ∧ encode (.sub 15 1) = 0x8F15 ∧ encode (.drw 0 1 15) = 0xD01F ∧
    encode (.ldBcd 10) = 0xFA33 ∧ encode (.nopE 0x1A0) = 0xE1A0 := by decide

/-- R60: the byte at the lower address is the high one, and one byte is no instruction. -/
theorem test_decode_bytes : decodeBytes [0x61, 0x05, 0xFF] = .ok (.ldImm 1 0x05, [0xFF]) ∧
    decodeBytes [0x61] = .error .truncated ∧ decodeTableWord 16 0x6105 = some (.ldImm 1 0x05) := by decide

/-! ### Fetch and the no-op -/

/-- F1, F9: nothing but `ir` and `pc`. -/
theorem test_step_no_op : gives (step State.reset) { State.reset with pc := 0x202 } ∧
    gives (step (State.reset.withFetchWord 16 0x0123))
      { State.reset.withFetchWord 16 0x0123 with ir := 0x0123, pc := 0x202 } := by decide

/-- F10 to F12. -/
theorem test_step_no_op_families : ranV 0x8018 (start [(1, 0xFF)]) [(1, 0xFF)] ∧
    ranV 0xE19F (start [(1, 0xFF)]) [(1, 0xFF)] ∧ ranV 0xF175 (start [(1, 0xFF)]) [(1, 0xFF)] := by decide

/-- F3: a fetch at 0xFFE. -/
theorem test_step_last_word : ran 0x602A { start [] with pc := 0xFFE } (fun t =>
    t.V[(0 : Reg)] == 0x2A && t.pc == 0x1000 && t.fault == none) := by decide

/-- F4, F5: a fetch outside. -/
theorem test_step_fetch_outside : gives (step { State.reset with pc := 0x1000, ir := 0x602A })
      { State.reset with pc := 0x1000, ir := 0x602A, fault := some ⟨.fetchOutOfBounds, 0x1000⟩ } ∧
    gives (step { State.reset with pc := 0xFFF })
      { State.reset with pc := 0xFFF, fault := some ⟨.fetchOutOfBounds, 0xFFF⟩ } := by decide

/-- F6: an odd `pc` fetches. -/
theorem test_step_odd_pc : holdsAfter
    (step { State.reset with mem := bytesAt 0x200 [0x12, 0x03, 0x00, 0x6A, 0x55], pc := 0x203 }) (fun t => t.ir == 0x6A55 && t.V[(10 : Reg)] == 0x55 && t.pc == 0x205) := by decide

/-! ### Control flow -/

/-- C26, F13. -/
theorem test_cls : ran 0x00E0 { start [(15, 1)] with px := frameOf [(63, 0)] } (fun t =>
      t.px == clearFrame && t.redraw && t.V[(15 : Reg)] == 1 && t.pc == 0x202) ∧
    ran 0x05E0 { start [] with px := frameOf [(9, 0)] } (fun t => t.px == clearFrame && t.redraw) := by decide

/-- C8, C10. -/
theorem test_ret : ran 0x00EE { start [] with pc := 0x20C, sp := 1, stack := State.reset.stack.set 0 0x206 } (fun t =>
      t.sp == 0 && t.pc == 0x206 && t.stack[0] == 0x206) ∧
    ran 0x05EE { start [] with sp := 1, stack := State.reset.stack.set 0 0x300 } (fun t => t.pc == 0x300) := by
  decide

/-- C9. -/
theorem test_ret_underflow : ran 0x00EE (start []) (fun t =>
    t.fault == some ⟨.stackUnderflow, 0⟩ && t.sp == 0 && t.pc == 0x202 && t.faultCode == 3) := by decide

/-- C2, C3. -/
theorem test_jp : ran 0x1200 (start []) (fun t => t.pc == 0x200) ∧
    ran 0x1FFF (start []) (fun t => t.pc == 0xFFF && t.fault == none) := by decide

/-- C5, C6. -/
theorem test_call : ran 0x220A { start [] with pc := 0x204 } (fun t =>
      t.stack[0] == 0x206 && t.sp == 1 && t.pc == 0x20A) ∧
    ran 0x2300 { start [] with sp := 15 } (fun t => t.stack[15] == 0x202 && t.sp == 16 && t.pc == 0x300) := by
  decide

/-- C7. -/
theorem test_call_overflow : ran 0x2300 { start [] with sp := 16 } (fun t =>
    t.fault == some ⟨.stackOverflow, 16⟩ && t.sp == 16 && t.stack == State.reset.stack && t.pc == 0x202 &&
      t.ir == 0x2300 && t.faultCode == 2 && t.faultInfo == 16) := by decide

/-- C11 to C14. -/
theorem test_skip_immediate : ran 0x3105 (start [(1, 5)]) (fun t => t.pc == 0x204) ∧
    ran 0x3105 (start [(1, 4)]) (fun t => t.pc == 0x202) ∧ ran 0x4105 (start [(1, 5)]) (fun t => t.pc == 0x202) ∧
    ran 0x4106 (start [(1, 5)]) (fun t => t.pc == 0x204) := by decide

/-- C16, C18 to C20. -/
theorem test_skip_registers : ran 0x5230 (start [(2, 7), (3, 8)]) (fun t => t.pc == 0x202) ∧
    ran 0x523B (start [(2, 7), (3, 7)]) (fun t => t.pc == 0x204) ∧
    ran 0x9230 (start [(2, 7), (3, 8)]) (fun t => t.pc == 0x204) ∧
    ran 0x9230 (start [(2, 7), (3, 7)]) (fun t => t.pc == 0x202) := by decide

/-- C23, C24. -/
theorem test_jump_offset : ran 0xB300 (start [(0, 4), (3, 0x99)]) (fun t => t.pc == 0x304) ∧
    ran 0xBFFF (start [(0, 0xFF)]) (fun t => t.pc == 0x10FE && t.fault == none) := by decide

/-! ### Immediate loads -/

/-- I1, I4, I7. -/
theorem test_immediate : ranV 0x6105 (start []) [(1, 5)] ∧ ranV 0x710A (start [(1, 250)]) [(1, 4)] ∧
    ranV 0x7F01 (start [(15, 0xFF)]) [] := by decide

/-- I9. -/
theorem test_load_index : ran 0xAFFF { start [] with I := 0x1234 } (fun t => t.I == 0x0FFF) := by decide

/-! ### Arithmetic and logic -/

/-- A1, A3 to A5. -/
theorem test_logic : ranV 0x8010 (start [(0, 1), (1, 0x2A)]) [(0, 0x2A), (1, 0x2A)] ∧
    ranV 0x8011 (start [(0, 0xF0), (1, 0x0F), (15, 1)]) [(0, 0xFF), (1, 0x0F), (15, 1)] ∧
    ranV 0x8012 (start [(0, 0xF0), (1, 0x3C), (15, 1)]) [(0, 0x30), (1, 0x3C), (15, 1)] ∧
    ranV 0x8013 (start [(0, 0xF0), (1, 0x3C), (15, 1)]) [(0, 0xCC), (1, 0x3C), (15, 1)] := by decide

/-- A8, A10. -/
theorem test_add : ranV 0x8014 (start [(0, 255), (1, 1)]) [(0, 0), (1, 1), (15, 1)] ∧
    ranV 0x8014 (start [(0, 200), (1, 55), (15, 1)]) [(0, 255), (1, 55), (15, 0)] := by decide

/-- A14, A16. -/
theorem test_sub : ranV 0x8015 (start [(0, 5), (1, 10)]) [(0, 251), (1, 10), (15, 0)] ∧
    ranV 0x8015 (start [(0, 7), (1, 7)]) [(0, 0), (1, 7), (15, 1)] := by decide

/-- A19, A21. -/
theorem test_shr : ranV 0x8016 (start [(0, 5), (1, 0xEE)]) [(0, 2), (1, 0xEE), (15, 1)] ∧
    ranV 0x8016 (start [(0, 0x80), (15, 1)]) [(0, 0x40), (15, 0)] := by decide

/-- A23, A26. -/
theorem test_subn : ranV 0x8017 (start [(0, 10), (1, 5)]) [(0, 251), (1, 5), (15, 0)] ∧
    ranV 0x8017 (start [(0, 0), (1, 255)]) [(0, 255), (1, 255), (15, 1)] := by decide

/-- A27, A29. -/
theorem test_shl : ranV 0x801E (start [(0, 0x81), (1, 0xEE)]) [(0, 0x02), (1, 0xEE), (15, 1)] ∧
    ranV 0x801E (start [(0, 0x7F), (15, 1)]) [(0, 0xFE), (15, 0)] := by decide

/-- A40, A41, A43, A44, A46: VF as destination. -/
theorem test_vf_destination : ranV 0x8F14 (start [(15, 200), (1, 100)]) [(15, 44), (1, 100)] ∧
    ranV 0x8F15 (start [(15, 5), (1, 10)]) [(15, 251), (1, 10)] ∧
    ranV 0x8F17 (start [(15, 5), (1, 10)]) [(15, 5), (1, 10)] ∧ ranV 0x8F16 (start [(15, 3)]) [(15, 1)] ∧
    ranV 0x8F1E (start [(15, 0x81)]) [(15, 0x02)] := by decide

/-- A47, A50, A51: VF as the second operand. -/
theorem test_vf_operand : ranV 0x82F4 (start [(2, 10), (15, 250)]) [(2, 4), (15, 1)] ∧
    ranV 0x82F5 (start [(2, 0), (15, 1)]) [(2, 255), (15, 0)] ∧
    ranV 0x82F7 (start [(2, 10), (15, 1)]) [(2, 247), (15, 0)] := by decide

/-- A32, whatever is drawn. -/
theorem test_random_masked : exec (.rnd 1 0) (start [(1, 9)]) = .next { start [] with drawCount := 1 } := by
  have masked : Config.draw (start [(1, 9)]).drawCount &&& 0 = 0 := BitVec.and_zero
  have cleared : (start [(1, 9)]).setReg 1 0 = start [] := by decide
  simp only [exec, execRnd, masked, cleared]
  rfl

/-! ### Graphics -/

/-- X1, X3. -/
theorem test_draw : ran 0xD011 { start [] with mem := bytesAt 0x300 [0xFF] } (fun t =>
      t.px == frameOf ((List.finRange 8).map fun c => (⟨c.val, by omega⟩, 0)) && t.V == State.reset.V && t.redraw) ∧
    ran 0xD011 { start [] with mem := bytesAt 0x300 [0xC0], px := frameOf [(0, 0)] } (fun t =>
      t.px == frameOf [(1, 0)] && t.V[(15 : Reg)] == 1) := by decide

/-- X5, X6: both wraps. -/
theorem test_draw_wraps : ran 0xD012 { start [(1, 31)] with mem := bytesAt 0x300 [0x80, 0x80] } (fun t =>
      t.px == frameOf [(0, 31), (0, 0)]) ∧
    ran 0xD011 { start [(0, 255), (1, 255)] with mem := bytesAt 0x300 [0xC0] } (fun t =>
      t.px == frameOf [(63, 31), (0, 31)]) := by decide

/-- X8, X9: no rows, and the last byte of memory. -/
theorem test_draw_edges : ran 0xD010 { start [(15, 1)] with I := 0xFFFF } (fun t =>
      t.fault == none && t.V[(15 : Reg)] == 0 && t.redraw) ∧
    ran 0xD011 { start [] with I := 0xFFF, mem := bytesAt 0xFFF [0x80] } (fun t =>
      t.px == frameOf [(0, 0)] && t.fault == none) := by decide

/-- X10, X11. -/
theorem test_draw_outside : ran 0xD012 { start [(15, 1)] with I := 0xFFF } (fun t =>
      t.fault == some ⟨.addressOutOfBounds, 0x1000⟩ && t.V[(15 : Reg)] == 1 && t.px == clearFrame && !t.redraw &&
        t.pc == 0x202) ∧
    ran 0xD011 { start [] with I := 0x2000 } (fun t => t.fault == some ⟨.addressOutOfBounds, 0x2000⟩) := by
  decide

/-- X12: the old VF is the column. -/
theorem test_draw_vf_column : ran 0xDF01 { start [(15, 5), (0, 2)] with mem := bytesAt 0x300 [0x80] } (fun t =>
    t.px == frameOf [(5, 2)] && t.V[(15 : Reg)] == 0) := by decide

/-- The cell of column `c` and row `r` has index `r * 64 + c` (R34): (5, 2) is 133. -/
theorem test_cell_index : Frame.pixel (frameOf [(5, 2)]) 133 = true ∧ Frame.pixel (frameOf [(5, 2)]) 132 = false := by
  decide

/-! ### Keypad -/

/-- K1, K2. -/
theorem test_skip_if_held : ran 0xE19E { start [(1, 7)] with key := held [7] } (fun t => t.pc == 0x204) ∧
    ran 0xE19E { start [(1, 7)] with key := held [1] } (fun t => t.pc == 0x202) := by decide

/-- K3, K4. -/
theorem test_skip_if_not_held : ran 0xE1A1 (start [(1, 7)]) (fun t => t.pc == 0x204) ∧
    ran 0xE1A1 { start [(1, 7)] with key := held [7] } (fun t => t.pc == 0x202) := by decide

/-- K5, K6. -/
theorem test_key_index : ran 0xE19E (start [(1, 16)]) (fun t =>
      t.fault == some ⟨.keyIndexOutOfRange, 16⟩ && t.pc == 0x202) ∧
    ran 0xE1A1 (start [(1, 0x17)]) (fun t => t.fault == some ⟨.keyIndexOutOfRange, 0x17⟩) := by decide

/-! ### Timers, index, memory transfer -/

theorem test_timers : ran 0xF207 { start [] with DT := 6 } (fun t => t.V[(2 : Reg)] == 6 && t.DT == 6) ∧
    ran 0xF115 (start [(1, 9)]) (fun t => t.DT == 9 && t.ST == 0) ∧
    ran 0xF118 (start [(1, 9)]) (fun t => t.ST == 9 && t.DT == 0) := by decide

/-- R211's example. -/
theorem test_wait_for_key : ran 0xF10A (start [(1, 3)]) (fun t => t.pc == 0x200 && t.V[(1 : Reg)] == 3) ∧
    ran 0xF10A { start [] with key := held [7, 0xB] } (fun t => t.pc == 0x202 && t.V[(1 : Reg)] == 7) := by
  decide

/-- T14 and R214's example. -/
theorem test_add_index : ran 0xF21E { start [(2, 1)] with I := 0xFFFF } (fun t => t.I == 0) ∧
    ran 0xF21E { start [(2, 1), (15, 7)] with I := 0x0FFF } (fun t => t.I == 0x1000 && t.V[(15 : Reg)] == 7) := by
  decide

/-- T16, T17. -/
theorem test_glyph_address : ran 0xF029 (start [(0, 0x1A)]) (fun t => t.I == 0x32) ∧
    ran 0xF029 (start [(0, 0xFF)]) (fun t => t.I == 0x4B) := by decide

/-- T18, T22. -/
theorem test_decimal_digits : ran 0xF033 (start [(0, 157)]) (fun t => t.mem.readBlock 0x300 4 == [1, 5, 7, 0]) ∧
    ran 0xF033 { start [(0, 123)] with I := 0xFFD } (fun t =>
      t.mem.readBlock 0xFFD 3 == [1, 2, 3] && t.fault == none) := by decide

/-- T23, T24. -/
theorem test_decimal_digits_outside : ran 0xF033 { start [(0, 123)] with I := 0xFFE } (fun t =>
      t.fault == some ⟨.addressOutOfBounds, 0x1000⟩ && t.mem.readBlock 0xFFE 2 == [0, 0]) ∧
    ran 0xF033 { start [] with I := 0xFFFF } (fun t =>
      t.fault == some ⟨.addressOutOfBounds, 0xFFFF⟩ && t.mem.read 0 == 0xF0) := by decide

/-- T25, T29. -/
theorem test_store_block : ran 0xF355 (start [(0, 1), (1, 2), (2, 3), (3, 4), (4, 5)]) (fun t =>
      t.mem.readBlock 0x300 5 == [1, 2, 3, 4, 0] && t.I == 0x300) ∧
    ran 0xF155 { start [(0, 0xAA), (1, 0xBB)] with I := 0 } (fun t =>
      t.mem.readBlock 0 3 == [0xAA, 0xBB, 0x90] && t.fault == none) := by decide

/-- T28, T32. -/
theorem test_block_outside : ran 0xFF55 { start [(0, 1)] with I := 0xFF1 } (fun t =>
      t.fault == some ⟨.addressOutOfBounds, 0x1000⟩ && t.mem.read 0xFF1 == 0) ∧
    ran 0xF165 { start [(0, 3)] with I := 0xFFF } (fun t =>
      t.fault == some ⟨.addressOutOfBounds, 0x1000⟩ && t.V == (start [(0, 3)]).V) := by decide

/-- T30, T31. -/
theorem test_load_block : ran 0xF365 { start [(4, 9)] with mem := bytesAt 0x300 [0xA, 0xB, 0xC, 0xD, 0xE] } (fun t =>
      t.V == (start [(0, 0xA), (1, 0xB), (2, 0xC), (3, 0xD), (4, 9)]).V && t.I == 0x300) ∧
    ran 0xFF65 { start [] with I := 0 } (fun t => t.V.toList ==
      [0xF0, 0x90, 0x90, 0x90, 0xF0, 0x20, 0x60, 0x20, 0x20, 0x70, 0xF0, 0x10, 0xF0, 0x80, 0xF0, 0xF0]) := by
  decide

/-- T33: a machine with the option that is not the default. -/
theorem test_block_increments :
    ran 0xF355 { start [(0, 1), (1, 2), (2, 3), (3, 4), (4, 5)] with blockXferIncrementsI := true } (fun t =>
      t.mem.readBlock 0x300 5 == [1, 2, 3, 4, 0] && t.I == 0x304) ∧
    ran 0xF165 { start [] with blockXferIncrementsI := true } (fun t => t.I == 0x302) := by decide

/-- An access outside raises under the option too, and `I` stays. -/
theorem test_block_increments_outside : ran 0xF155 { start [] with blockXferIncrementsI := true, I := 0xFFF } (fun t =>
    t.fault == some ⟨.addressOutOfBounds, 0x1000⟩ && t.I == 0xFFF) := by decide

/-- A machine with another font, after an FX55 over it and a RESET. -/
theorem test_other_font : holdsAfter (exec (.storeRegs 1) { State.resetWith otherParams with V := (start [(0, 7)]).V })
    (fun t => t.mem.readBlock 0 2 == [7, 0] && holdsAfter (perform .reset t) fun u =>
      u == State.resetWith otherParams && u.mem.read 0 == 0x3C && u.mem.read 79 == 0x3C && u.mem.read 80 == 0) := by
  decide

/-- F14: a stored word is fetched next. -/
theorem test_store_then_fetch : ran 0xF155 { start [(0, 0x6A), (1, 0x55)] with I := 0x202 } (fun t =>
    holdsAfter (step t) fun u => u.ir == 0x6A55 && u.V[(10 : Reg)] == 0x55) := by decide

/-! ### Host operations -/

/-- H1. -/
theorem test_reset : gives (perform .reset { start [(3, 9)] with fault := some ⟨.stackOverflow, 16⟩, DT := 4 })
    State.reset := by decide

/-- H2. -/
theorem test_load : holdsAfter (perform (.load [0x61, 0x05, 0x31]) State.reset) (fun t =>
    t.mem.readBlock 0x200 4 == [0x61, 0x05, 0x31, 0x00] && t.mem.readBlock 0 2 == [0xF0, 0x90] && t.pc == 0x200) := by
  decide

/-- S8, R232's example. -/
theorem test_tick : tick { State.reset with DT := 7, ST := 0 } = { State.reset with DT := 6, ST := 0 } ∧
    tick { State.reset with DT := 1, ST := 255 } = { State.reset with DT := 0, ST := 254 } := by decide

/-- H3, H5, H6, F8. -/
theorem test_key_ack_faulted : gives (perform (.key 7 true) State.reset) { State.reset with key := held [7] } ∧
    gives (perform .redrawAck State.reset) { State.reset with redraw := false } ∧
    gives (perform (.key 3 true) { State.reset with fault := some ⟨.stackOverflow, 16⟩ })
      { State.reset with fault := some ⟨.stackOverflow, 16⟩, key := held [3] } ∧
    gives (perform .tick { State.reset with DT := 3, fault := some ⟨.stackOverflow, 16⟩ })
      { State.reset with DT := 3, fault := some ⟨.stackOverflow, 16⟩ } := by decide

/-- R235. -/
theorem test_exports : State.reset.exports = ⟨clearFrame, true, 0, 0, 0, 0⟩ ∧
    (State.raise State.reset .keyIndexOutOfRange 0x17).exports = ⟨clearFrame, true, 0, 0, 5, 0x17⟩ := by decide

/-- What `withFetchWord` places is what `step` runs, from reset and from a state that cannot fetch. -/
theorem test_with_fetch_word : ran 0x6105 State.reset (fun t => t.V[(1 : Reg)] == 5) ∧
    ran 0x6105 { State.reset with pc := 0xFFF, fault := some ⟨.fetchOutOfBounds, 0xFFF⟩ } (fun t =>
      t.V[(1 : Reg)] == 5 && t.fault == none) := by decide

/-! ### Memory -/

/-- Writing what an unlisted byte reads as lists nothing, and the form is canonical whatever the order of writes. -/
theorem test_memory_canonical : (bytesAt 0x300 [0]).cells = [] ∧ (bytesAt 0 [0xF0]).cells = [] ∧
    ((bytesAt 0x301 [2]).write 0x300 1).cells = [(0x300, 1), (0x301, 2)] ∧
    ((bytesAt 0x300 [1]).write 0x300 0).cells = [] ∧ ((State.resetWith otherParams).mem.write 0 0x3C).cells = [] := by
  decide

/-- The form refuses what is out of order, what reads as unlisted, and what lies outside; it depends on the font. -/
theorem test_memory_wf : Memory.wf ⟨Config.font, [(0x301, 2), (0x300, 1)]⟩ = false ∧
    Memory.wf ⟨Config.font, [(0x300, 0)]⟩ = false ∧ Memory.wf ⟨Config.font, [(0x1000, 1)]⟩ = false ∧
    Memory.wf ⟨Config.font, [(0, 0), (0xFFF, 1)]⟩ = true ∧ Memory.wf ⟨Config.font, [(0, 0xF0)]⟩ = false ∧
    Memory.wf ⟨otherParams.font, [(0, 0xF0)]⟩ = true := by decide

/-! ### Witnesses: states and operands that meet a statement's hypotheses, each clause at a boundary of its range -/

/-- F3's state: the last word of memory, about to run. -/
def lastWord : State := { start [] with pc := 0xFFE, mem := bytesAt 0xFFE [0x60, 0x2A] }

/-- A state about to run a word at 0xFFE. -/
def aboutToRun (hi lo : Byte) : State := { start [] with pc := 0xFFE, mem := bytesAt 0xFFE [hi, lo] }

/-- A faulted state. -/
def dead : State := { start [] with fault := some ⟨.stackOverflow, 16⟩ }

theorem test_witness_decode_of_encode : Instr.wf (.nop0 0xFFF) = true ∧ Instr.wf (.drw 15 15 15) = true := by decide

/-- Every leading nibble has a word that meets the hypotheses together with it. -/
theorem test_witness_dispatch : ∀ op : Fin 16, (BitVec.ofNat 16 (op.val * 4096 + 0xAB7)).toNat / 4096 = op.val ∧
    (10 : Reg).val = (BitVec.ofNat 16 (op.val * 4096 + 0xAB7)).toNat / 256 % 16 ∧
    (11 : Reg).val = (BitVec.ofNat 16 (op.val * 4096 + 0xAB7)).toNat / 16 % 16 ∧
    (7 : Nibble).toNat = (BitVec.ofNat 16 (op.val * 4096 + 0xAB7)).toNat % 16 ∧
    (0xB7 : Byte).toNat = (BitVec.ofNat 16 (op.val * 4096 + 0xAB7)).toNat % 256 ∧
    (0xAB7 : Addr12).toNat = (BitVec.ofNat 16 (op.val * 4096 + 0xAB7)).toNat % 4096 := by decide

theorem test_witness_step_runs : lastWord.fault = none ∧ lastWord.pc.toNat = 0xFFE ∧ Instr.wf (.ldImm 0 0x2A) = true ∧
    (lastWord.mem.read lastWord.pc.toNat).toNat * 256 + (lastWord.mem.read (lastWord.pc.toNat + 1)).toNat =
      (encode (.ldImm 0 0x2A)).toNat := by decide

/-- Images of the least and of the greatest admitted length, and of the lengths just outside. -/
theorem test_witness_image_lengths : ([7] : List Byte).length = 1 ∧ (List.replicate 3584 (7 : Byte)).length ≤ 3584 ∧
    ([] : List Byte).length = 0 ∧ 3584 < (List.replicate 3585 (7 : Byte)).length :=
  ⟨rfl, le_of_eq List.length_replicate, rfl, by rw [List.length_replicate]; decide⟩

theorem test_witness_image_byte : ([7, 8] : List Byte)[1]? = some 8 := by decide

theorem test_witness_advances : changesFlow (decode lastWord.fetchWord) = false ∧
    decode (aboutToRun 0xF1 0x0A).fetchWord = .ldRegKey 1 ∧
    changesFlow (decode (aboutToRun 0xF1 0x0A).fetchWord) = false ∧ (aboutToRun 0xF1 0x0A).pc.toNat = 0xFFE ∧
    (∀ k : Key, (aboutToRun 0xF1 0x0A).key[k] = false) ∧ (held [15])[(15 : Key)] = true := by decide

theorem test_witness_fetch_outside : ({ start [] with pc := 0xFFF } : State).fault = none ∧
    0xFFE < ({ start [] with pc := 0xFFF } : State).pc.toNat := by decide

theorem test_witness_faulted : dead.fault = some ⟨.stackOverflow, 16⟩ := by decide

/-- Both clauses: a cycle in the faulted state, and each other operation in a state without a fault. -/
theorem test_witness_only_reset_clears : gives (perform .cycle dead) dead ∧ gives (perform .tick dead) dead ∧
    gives (perform .tick (start [])) (start []) ∧ gives (perform .redrawAck (start [])) (start []) ∧
    holdsAfter (perform (.load [7]) (start [])) (fun t => t.fault == none) ∧
    holdsAfter (perform (.key 15 true) (start [])) (fun t => t.fault == none) := by decide

/-- A fault of the fetch and one of the execute phase. -/
theorem test_witness_precise : holdsAfter (step { start [] with pc := 0xFFF }) (fun t =>
      t.fault == some ⟨.fetchOutOfBounds, 0xFFF⟩) ∧
    holdsAfter (step (aboutToRun 0x00 0xEE)) (fun t => t.fault == some ⟨.stackUnderflow, 0⟩) := by decide

/-- Every instruction that can raise does so at the boundary, and does not just inside it. -/
theorem test_witness_raise_stack : holdsAfter (exec (.ret 0) (start [])) (fun t => t.fault == some ⟨.stackUnderflow, 0⟩) ∧
    holdsAfter (exec (.ret 0) { start [] with sp := 1 }) (fun t => t.fault == none) ∧
    holdsAfter (exec (.call 0) { start [] with sp := 16 }) (fun t => t.fault == some ⟨.stackOverflow, 16⟩) ∧
    holdsAfter (exec (.call 0) { start [] with sp := 15 }) (fun t => t.fault == none) := by decide

theorem test_witness_raise_address :
    holdsAfter (exec (.drw 0 0 2) { start [] with I := 0xFFF }) (fun t => t.fault == some ⟨.addressOutOfBounds, 0x1000⟩) ∧
    holdsAfter (exec (.drw 0 0 2) { start [] with I := 0xFFE }) (fun t => t.fault == none) ∧
    holdsAfter (exec (.ldBcd 0) { start [] with I := 0xFFE }) (fun t => t.fault == some ⟨.addressOutOfBounds, 0x1000⟩) ∧
    holdsAfter (exec (.storeRegs 0) { start [] with I := 0x1000 }) (fun t =>
      t.fault == some ⟨.addressOutOfBounds, 0x1000⟩) ∧
    holdsAfter (exec (.loadRegs 15) { start [] with I := 0xFF0 }) (fun t => t.fault == none) := by decide

theorem test_witness_raise_key :
    holdsAfter (exec (.skp 0) (start [(0, 16)])) (fun t => t.fault == some ⟨.keyIndexOutOfRange, 16⟩) ∧
    holdsAfter (exec (.sknp 0) (start [(0, 15)])) (fun t => t.fault == none) := by decide

theorem test_witness_transfers_outside : 1 ≤ (1 : Nibble).toNat ∧ (0x1000#16).toNat + (1 : Nibble).toNat - 1 > 0xFFF ∧
    (0xFFE#16).toNat + 2 > 0xFFF ∧ (0xFF1#16).toNat + (15 : Reg).val > 0xFFF ∧
    (0x1000#16).toNat + (0 : Reg).val > 0xFFF := by decide

theorem test_witness_tick : ({ start [] with DT := 0, ST := 255 } : State).fault = none := by decide

/-- Words of every row whose mask and match a statement names. -/
theorem test_witness_masks : (0x0FE0#16 &&& 0xF0FF = 0x00E0) ∧ (0x0FEE#16 &&& 0xF0FF = 0x00EE) ∧
    (0x1FFF#16 &&& 0xF000 = 0x1000) ∧ (0x2FFF#16 &&& 0xF000 = 0x2000) ∧ (0x3FFF#16 &&& 0xF000 = 0x3000) ∧
    (0x4FFF#16 &&& 0xF000 = 0x4000) ∧ (0x6FFF#16 &&& 0xF000 = 0x6000) ∧ (0xBFFF#16 &&& 0xF000 = 0xB000) ∧
    (0x8FF0#16 &&& 0xF00F = 0x8000) ∧ (0x8FF1#16 &&& 0xF00F = 0x8001) ∧ (0x8FF2#16 &&& 0xF00F = 0x8002) ∧
    (0x8FF3#16 &&& 0xF00F = 0x8003) ∧ (0xFF07#16 &&& 0xF0FF = 0xF007) ∧ (0xFF15#16 &&& 0xF0FF = 0xF015) ∧
    (0xFF18#16 &&& 0xF0FF = 0xF018) ∧ (0xFF29#16 &&& 0xF0FF = 0xF029) ∧ (0xFF33#16 &&& 0xF0FF = 0xF033) := by decide

/-- The least and the greatest `sp` of each clause of the return and of the call. -/
theorem test_witness_stack : ({ start [] with sp := 1 } : State).sp = (0 : Fin 16).succ ∧
    ({ start [] with sp := 16 } : State).sp = (15 : Fin 16).succ ∧ (start []).sp = (0 : Fin 16).castSucc ∧
    ({ start [] with sp := 15 } : State).sp = (15 : Fin 16).castSucc ∧ (start []).sp = 0 ∧
    ({ start [] with sp := 16 } : State).sp = 16 := by decide

theorem test_witness_return_comes_back : ({ start [] with sp := 15 } : State).sp.val < 16 ∧
    gives (exec (.call 0x300) { start [] with sp := 15 })
      { start [] with sp := 16, stack := State.reset.stack.set 15 0x200, pc := 0x300 } := by decide

theorem test_witness_flag_operand : (14 : Reg) ≠ 15 ∧ (0 : Reg) ≠ 15 := by decide

/-- No rows with `I` outside, and the last row on the last byte; a lit bit on a lit cell, on a dark one, and none. -/
theorem test_witness_draw : (0 : Nibble) = 0 ∧ (0xFF1#16).toNat + (15 : Nibble).toNat - 1 ≤ 0xFFF ∧
    State.spriteLights { start [] with mem := bytesAt 0x300 [0x80] } 0 1 1 0 ∧
    Frame.pixel (frameOf [(0, 0)]) 0 = true ∧ Frame.pixel clearFrame 0 = false :=
  ⟨rfl, by decide, ⟨0, by decide, 0, by decide, by decide, by decide⟩, by decide, by decide⟩

theorem test_witness_draw_unlit : ¬State.spriteLights (start []) 0 1 0 2047 := by
  rintro ⟨row, h, -⟩
  exact absurd h (by simp)

theorem test_witness_draw_twice : (0x300#16).toNat + (1 : Nibble).toNat - 1 ≤ 0xFFF ∧
    holdsAfter (exec (.drw 0 1 1) { start [] with mem := bytesAt 0x300 [0x80] }) (fun t =>
      t.V[(0 : Reg)] == 0 && t.V[(1 : Reg)] == 0 && holdsAfter (exec (.drw 0 1 1) t) fun u => u.V[(15 : Reg)] == 1) := by
  decide

theorem test_witness_key_skip : (start [(0, 15)]).V[(0 : Reg)].toNat = (15 : Key).val ∧
    (start [(0, 0)]).V[(0 : Reg)].toNat = (0 : Key).val ∧ 15 < (start [(0, 16)]).V[(0 : Reg)].toNat := by decide

theorem test_witness_wait : (held [15])[(15 : Key)] = true ∧ (∀ j < (15 : Key), (held [15])[j] = false) ∧
    (held [0, 15])[(0 : Key)] = true ∧ (∀ j < (0 : Key), (held [0, 15])[j] = false) ∧
    (∀ k : Key, (start []).key[k] = false) := by decide

theorem test_witness_waiting_cycle : (aboutToRun 0xFF 0x0A).fault = none ∧ (aboutToRun 0xFF 0x0A).pc.toNat ≤ 0xFFE ∧
    decode (aboutToRun 0xFF 0x0A).fetchWord = .ldRegKey 15 ∧ (∀ k : Key, (aboutToRun 0xFF 0x0A).key[k] = false) := by
  decide

theorem test_witness_digits : (0xFFD#16).toNat + 2 ≤ 0xFFF ∧ (0xFFE#16).toNat + 2 > 0xFFF ∧
    (∀ k < 3, 0xFFC ≠ effectiveAddress 0xFFD k) ∧ (∀ k < 3, 0x303 ≠ effectiveAddress 0x300 k) := by decide

theorem test_witness_blocks : (0xFF0#16).toNat + (15 : Reg).val ≤ 0xFFF ∧ (0xFFF#16).toNat + (0 : Reg).val ≤ 0xFFF ∧
    (∀ k ≤ (15 : Reg).val, 0xFEF ≠ effectiveAddress 0xFF0 k) ∧ (15 : Reg) ≤ 15 ∧ (0 : Reg) < 1 := by decide

/-- Registers changed between the store and the load, with and without the option. -/
theorem test_witness_store_then_load : holdsAfter (exec (.storeRegs 3) (start [(0, 1), (3, 4)])) (fun t =>
      holdsAfter (exec (.loadRegs 3) { t with V := (start [(0, 9), (4, 7)]).V, I := 0x300 }) fun v =>
        v.V == (start [(0, 1), (3, 4), (4, 7)]).V && v.I == 0x300) ∧
    holdsAfter (exec (.storeRegs 3) { start [(0, 1), (3, 4)] with blockXferIncrementsI := true }) (fun t =>
      holdsAfter (exec (.loadRegs 3) { t with V := (start [(0, 9), (4, 7)]).V, I := 0x300 }) fun v =>
        v.V == (start [(0, 1), (3, 4), (4, 7)]).V && v.I == 0x304) := by decide

theorem test_witness_parameters : holdsAfter (exec (.storeRegs 3) (State.resetWith otherParams)) (fun t =>
      t.params == otherParams) ∧
    holdsAfter (perform (.load [7]) (State.resetWith otherParams)) (fun t => t.params == otherParams) := by decide

theorem test_witness_stored_fetched : ({ start [] with pc := 0x30E } : State).fault = none ∧
    (start []).I.toNat + (15 : Reg).val ≤ 0xFFF ∧ (14 : Reg).val + 1 ≤ (15 : Reg).val ∧
    ({ start [] with pc := 0x30E } : State).pc.toNat = (start []).I.toNat + (14 : Reg).val ∧
    holdsAfter (exec (.storeRegs 15) { start [] with pc := 0x30E }) (fun t => t.fault == none) := by decide

theorem test_witness_no_op : (∀ row ∈ opcodeRows, (aboutToRun 0x01 0x23).fetchWord &&& row.1 ≠ row.2) ∧
    (aboutToRun 0x01 0x23).fault = none ∧ (aboutToRun 0x01 0x23).pc.toNat ≤ 0xFFE := by
  refine ⟨fun row hr e => ?_, by decide, by decide⟩
  have none : opcodeRows.all (fun r => !rowMatches r (aboutToRun 0x01 0x23).fetchWord) = true := by decide
  have := List.all_eq_true.mp none row hr
  simp only [rowMatches, e, beq_self_eq_true, Bool.not_true] at this
  cases this

/-- A register outside an instruction's destinations, for each shape of them. -/
theorem test_witness_register_frame : mayWriteReg (.addReg 3 4) 4 = false ∧ mayWriteReg (.loadRegs 3) 4 = false ∧
    mayWriteReg (.drw 0 1 5) 0 = false ∧ mayWriteReg (.ldRegKey 0) 15 = false ∧ mayWriteReg (.ldBcd 5) 5 = false ∧
    holdsAfter (exec (.addReg 3 4) (start [(3, 200), (4, 100)])) (fun t => t.V[(4 : Reg)] == 100) := by decide

/-- An address outside the bytes stored, for each form that stores, and any address for one that does not. -/
theorem test_witness_memory_frame :
    (∀ x, Instr.ldBcd 3 = .ldBcd x → ∀ k < 3, 0x303 ≠ effectiveAddress (start []).I k) ∧
    (∀ x : Reg, Instr.storeRegs 3 = .storeRegs x → ∀ k ≤ x.val, 0x304 ≠ effectiveAddress (start []).I k) ∧
    (∀ x, Instr.ldI 3 = .ldBcd x → ∀ k < 3, 0x300 ≠ effectiveAddress (start []).I k) ∧
    holdsAfter (exec (.storeRegs 3) (start [(3, 9)])) (fun t => t.mem.read 0x304 == 0) := by
  refine ⟨?_, ?_, ?_, by decide⟩
  · rintro x - k hk
    have : effectiveAddress (start []).I k = 0x300 + k := rfl
    omega
  · rintro x e k hk
    cases e
    have h3 : k ≤ 3 := hk
    have : effectiveAddress (start []).I k = 0x300 + k := rfl
    omega
  · rintro x e
    cases e

theorem test_witness_display : (∀ ign, Instr.ldI 3 ≠ .cls ign) ∧ (∀ x y n, Instr.ldI 3 ≠ .drw x y n) ∧
    holdsAfter (exec (.ldI 3) (start [])) (fun t => t.I == 3) ∧ Operation.tick ≠ .reset ∧ Operation.tick ≠ .cycle ∧
    gives (perform .redrawAck (start [])) (start []) ∧ (0xFF1#16).toNat + (15 : Nibble).toNat ≤ 0x1000 := by
  refine ⟨by rintro _ ⟨⟩, by rintro _ _ _ ⟨⟩, by decide, by rintro ⟨⟩, by rintro ⟨⟩, by decide, by decide⟩

theorem test_witness_redraw_unread : gives (step lastWord) { lastWord with
    V := (start [(0, 0x2A)]).V, ir := 0x602A, pc := 0x1000 } := by decide

theorem test_witness_keys_timers : holdsAfter (step lastWord) (fun t => t.DT == 0) ∧
    (∀ x, decode lastWord.fetchWord ≠ .ldDt x) ∧ (∀ x, decode lastWord.fetchWord ≠ .ldSt x) := by
  have h : decode lastWord.fetchWord = .ldImm 0 0x2A := by decide
  rw [h]
  exact ⟨by decide, by rintro _ ⟨⟩, by rintro _ ⟨⟩⟩

theorem test_witness_stack_index : holdsAfter (exec (.addReg 0 1) (start [])) (fun t => t.sp == 0) ∧
    (∀ nnn, Instr.addReg 0 1 ≠ .call nnn) ∧ (∀ ign, Instr.addReg 0 1 ≠ .ret ign) ∧
    (∀ nnn, Instr.addReg 0 1 ≠ .ldI nnn) ∧ (∀ x, Instr.addReg 0 1 ≠ .addI x) ∧
    (∀ x, Instr.addReg 0 1 ≠ .ldFont x) ∧
    ((∃ x, Instr.storeRegs 3 = .storeRegs x ∨ Instr.storeRegs 3 = .loadRegs x) →
      (start []).blockXferIncrementsI = false) :=
  ⟨by decide, by rintro _ ⟨⟩, by rintro _ ⟨⟩, by rintro _ ⟨⟩, by rintro _ ⟨⟩, by rintro _ ⟨⟩,
    fun _ => rfl⟩

/-- A memory with bytes listed in it, before and after a step that stores. -/
theorem test_witness_canonical : (aboutToRun 0xF0 0x33).mem.wf = true ∧
    holdsAfter (step (aboutToRun 0xF0 0x33)) (fun t => t.mem.wf) ∧
    holdsAfter (perform (.load [7]) (aboutToRun 0xF0 0x33)) (fun t => t.mem.wf) := by decide

/-- The ranges at their boundary: `pc` at 0x10FE, a full stack of 0x1000, a record of the fetch. -/
def atTheEdge : State :=
  { start [] with pc := 0x10FE, stack := Vector.replicate 16 0x1000, fault := some ⟨.fetchOutOfBounds, 0x10FE⟩ }

theorem test_witness_in_range : atTheEdge.InRange ∧ gives (step atTheEdge) atTheEdge :=
  ⟨⟨by decide, by decide, by rintro r h; cases h; decide⟩, by decide⟩

theorem next_of_holdsAfter {o : Answer} {p : State → Bool} (h : holdsAfter o p = true) : ∃ t, o = .next t ∧ p t = true := by
  cases o with
  | next t => exact ⟨t, rfl, h⟩
  | fault f => cases h
  | refused r => cases h

/-- A run of a machine with parameters of its own: created, a key pressed, an image loaded, a cycle. -/
theorem test_witness_reachable : ∃ s, Reachable .running s ∧ s.key[(7 : Key)] = true ∧ s.V[(1 : Reg)] = 5 := by
  obtain ⟨loaded, hl, h⟩ : ∃ t, perform (.load [0x61, 0x05])
      (setKey 7 true { State.resetWith otherParams with drawCount := 3 }) = .next t ∧
      holdsAfter (step t) (fun u => u.key[(7 : Key)] && u.V[(1 : Reg)] == 5) = true := next_of_holdsAfter (by decide)
  obtain ⟨last, hs, hv⟩ := next_of_holdsAfter h
  have pressed := Reachable.operation (.key 7 true) (Reachable.created otherParams 3) rfl rfl
  refine ⟨last, .operation .cycle (.operation (.load [0x61, 0x05]) pressed rfl hl) rfl hs, by simpa using hv⟩

end Sys2Proof.Tests
end

section
/-!
PROOFS. The state after RESET (R42, R280), read field by field, and what the RESET operation makes of a running machine.
-/

namespace Sys2Proof.Machine

/-! ### Reading the state after RESET -/

/-- Bytes 0x000 to 0x04F hold the font (R31, R42). -/
theorem State.read_resetWith_font (p : Config.Params) (a : Fin 80) : (State.resetWith p).mem.read a.val = p.font[a] :=
  unlistedByte_font p.font a.val a.isLt

/-- From 0x050 on every byte is 0 (R42). -/
theorem State.read_resetWith_zero (p : Config.Params) (a : Nat) (h : 80 ≤ a) : (State.resetWith p).mem.read a = 0 :=
  unlistedByte_zero p.font a h

theorem State.resetWith_V_getElem (p : Config.Params) (x : Reg) : (State.resetWith p).V[x] = 0 :=
  Vector.getElem_replicate x.isLt

theorem State.resetWith_stack_getElem (p : Config.Params) (k : Fin 16) : (State.resetWith p).stack[k] = 0 :=
  Vector.getElem_replicate k.isLt

theorem State.resetWith_key_getElem (p : Config.Params) (k : Key) : (State.resetWith p).key[k] = false :=
  Vector.getElem_replicate k.isLt

@[simp] theorem State.resetWith_px_pixel (p : Config.Params) (i : Fin 2048) :
    (State.resetWith p).px.pixel i = false :=
  Frame.pixel_clear i

/-! ### The RESET operation -/

/-- RESET keeps the machine's parameters (R41) and its draw counter (log 26), and nothing else. -/
theorem perform_reset (s : State) :
    perform .reset s = .next { State.resetWith s.params with drawCount := s.drawCount } := rfl

/-- Settles O15: the table of R42 is read off the state after RESET, its vectors and memory by the lemmas above and its
scalar fields by definition; RESET answers with that state by `perform_reset`. -/
theorem resetLeavesTheTabulatedValues : Obligations.ResetLeavesTheTabulatedValues := by
  unfold Obligations.ResetLeavesTheTabulatedValues
  refine ⟨fun p => ?table, fun s => ?operation, rfl⟩
  case table =>
    exact ⟨State.read_resetWith_font p, fun a h _ => State.read_resetWith_zero p a h,
      State.resetWith_V_getElem p, rfl, rfl, State.resetWith_stack_getElem p, rfl, rfl, rfl,
      State.resetWith_key_getElem p, State.resetWith_px_pixel p, rfl, rfl, rfl⟩
  case operation => exact ⟨_, perform_reset s, rfl⟩

end Sys2Proof.Machine
end


section
/-!
PROOFS. The fetched word stays in `ir` through the execute phase (R36, R60), and LOAD places the image byte by byte
(R75, R231).
-/

namespace Sys2Proof.Machine

/-! ### The two bytes of a big-endian word, read arithmetically -/

theorem joinBytes_toNat_div (hi lo : Byte) : (joinBytes hi lo).toNat / 256 = hi.toNat := by
  rw [joinBytes_toNat]
  omega

theorem joinBytes_toNat_mod (hi lo : Byte) : (joinBytes hi lo).toNat % 256 = lo.toNat := by
  rw [joinBytes_toNat]
  omega

/-! ### No execute phase writes `ir` (R36) -/

theorem State.transfer_ir {s done t : State} {count : Nat} (h : s.transfer count done = .next t)
    (hdone : done.ir = s.ir) : t.ir = s.ir := by
  rcases s.transfer_cases done count with ⟨-, hd⟩ | ⟨-, hr⟩
  · cases hd.symm.trans h
    exact hdone
  · cases hr.symm.trans h
    rfl

theorem State.keySkip_ir {s t : State} {x : Reg} {skip : Bool → Bool} (h : s.keySkip x skip = .next t) :
    t.ir = s.ir := by
  rcases s.keySkip_cases x skip with ⟨_, hs⟩ | ⟨-, hr⟩
  · cases hs.symm.trans h
    exact State.skipIf_ir _ _
  · cases hr.symm.trans h
    rfl

theorem State.push_ir {s s' : State} {a : Word} (h : s.push a = some s') : s'.ir = s.ir := by
  obtain ⟨_, rfl⟩ := State.push_cases h
  rfl

theorem State.pop_ir {s s' : State} {a : Word} (h : s.pop = some (a, s')) : s'.ir = s.ir := by
  obtain ⟨_, _, rfl⟩ := State.pop_cases h
  rfl

/-- `ir` is the fetch phase's alone: the instructions that fault or branch on the state keep it by the lemma of the
operation they share, the skips of a compared register by `skipIf`, the others by definition. -/
theorem exec_ir {i : Instr} {s t : State} (h : exec i s = .next t) : t.ir = s.ir := by
  cases i with
  | ret ign =>
    simp only [exec, execRet] at h
    split at h
    · next hp => cases h; exact (State.jumpTo_ir _ _).trans (State.pop_ir hp)
    · cases h; rfl
  | call nnn =>
    simp only [exec, execCall] at h
    split at h
    · next hp => cases h; exact (State.jumpTo_ir _ _).trans (State.push_ir hp)
    · cases h; rfl
  | seImm x nn | sneImm x nn | seReg x y ign | sneReg x y ign => cases h; exact State.skipIf_ir _ _
  | skp x => exact State.keySkip_ir (skip := fun held => held) h
  | sknp x => exact State.keySkip_ir (skip := fun held => !held) h
  | ldRegKey x =>
    simp only [exec, execLdRegKey] at h
    split at h <;> cases h <;> rfl
  | drw x y n | ldBcd x | storeRegs x | loadRegs x => exact State.transfer_ir h rfl
  | _ => cases h; rfl

/-! ### A cycle that fetches -/

theorem step_of_fetch {s : State} (hfault : s.fault = none) (hpc : s.pc.toNat ≤ 0xFFE) :
    step s = exec (decode s.fetchWord) (s.fetched s.fetchWord) :=
  cycle_of_canFetch s (by simp [State.faulted, hfault]) (by simp [State.canFetch, hpc])

/-- A cycle that fetches answers a next state, and there `ir` is the word fetched (R60, R121). -/
theorem step_ir_of_fetch {s : State} (hfault : s.fault = none) (hpc : s.pc.toNat ≤ 0xFFE) :
    ∃ t, step s = .next t ∧ t.ir = s.fetchWord := by
  obtain ⟨t, ht⟩ := exec_total (decode s.fetchWord) (s.fetched s.fetchWord)
  exact ⟨t, (step_of_fetch hfault hpc).trans ht, exec_ir ht⟩

/-! ### LOAD -/

theorem perform_load_of_admitted {image : List Byte} (s : State) (hpos : 1 ≤ image.length)
    (hmax : image.length ≤ 3584) :
    perform (.load image) s = .next { s with mem := s.mem.writeBlock 0x200 image } :=
  if_pos ⟨hpos, hmax⟩

/-- Settles O7: the word fetched is still in `ir` after the cycle (`step_ir_of_fetch`) and joins its two bytes high byte
first; LOAD stores the image as one block at 0x200. -/
theorem fetchIsBigEndian : Obligations.FetchIsBigEndian := by
  unfold Obligations.FetchIsBigEndian
  refine ⟨fun s hfault hpc => ?fetch, fun image s hpos hmax => ?load⟩
  case fetch =>
    obtain ⟨t, ht, hir⟩ := step_ir_of_fetch hfault hpc
    refine ⟨t, ht, ?_, ?_⟩
    · rw [hir]; exact joinBytes_toNat_div _ _
    · rw [hir]; exact joinBytes_toNat_mod _ _
  case load =>
    exact ⟨_, perform_load_of_admitted s hpos hmax, Memory.read_writeBlock_inside image s.mem 0x200⟩

end Sys2Proof.Machine
end

section
/-!
PROOFS. Decoding follows R100: the fields of a word are digits of its value (R91), the leading digit selects a row of the
primary table (R94), and a family's secondary table is a chain of comparisons on its key (R95).
-/

namespace Sys2Proof

/-! ### The fields of a word, read arithmetically (R91) -/

/-- A bit field is the word shifted down and cut off: a quotient and a remainder by powers of two. -/
theorem extractLsb'_toNat_eq_div_mod (w : Word) (start len : Nat) :
    (w.extractLsb' start len).toNat = w.toNat / 2 ^ start % 2 ^ len := by
  rw [BitVec.extractLsb'_toNat, Nat.shiftRight_eq_div_pow]

/-- The leading nibble needs no remainder: the word ends there. -/
theorem opField_toNat (w : Word) : (opField w).toNat = w.toNat / 4096 :=
  (extractLsb'_toNat_eq_div_mod w 12 4).trans (by omega)

theorem xField_val (w : Word) : (xField w).val = w.toNat / 256 % 16 := extractLsb'_toNat_eq_div_mod w 8 4

theorem yField_val (w : Word) : (yField w).val = w.toNat / 16 % 16 := extractLsb'_toNat_eq_div_mod w 4 4

theorem nField_toNat (w : Word) : (nField w).toNat = w.toNat % 16 :=
  (extractLsb'_toNat_eq_div_mod w 0 4).trans (by omega)

theorem nnField_toNat (w : Word) : (nnField w).toNat = w.toNat % 256 :=
  (extractLsb'_toNat_eq_div_mod w 0 8).trans (by omega)

theorem nnnField_toNat (w : Word) : (nnnField w).toNat = w.toNat % 4096 :=
  (extractLsb'_toNat_eq_div_mod w 0 12).trans (by omega)

/-- `w[11:8]` is one field, whether its bits name a register or are ignored (R98). -/
theorem ofFin_xField (w : Word) : BitVec.ofFin (xField w) = ignHighField w := rfl

/-- The number of a primary row is the leading nibble (R94). -/
theorem opField_of_div {w : Word} {op : Nat} (h : w.toNat / 4096 = op) : opField w = BitVec.ofNat 4 op := by
  rw [← h, ← opField_toNat, BitVec.ofNat_toNat, BitVec.setWidth_eq]

/-! ### The secondary tables (R95)

In each branch of the lookup the key is known: it decides the comparisons of the chain up to its own, and the default
branch denies them all. -/

theorem decodeSystem_eq (w : Word) : decodeSystem w =
    if nnField w = 0xE0 then .cls (ignHighField w) else if nnField w = 0xEE then .ret (ignHighField w)
    else .nop0 (nnnField w) := by
  unfold decodeSystem
  split <;> simp_all

theorem decodeArithmetic_eq (w : Word) : decodeArithmetic w =
    if nField w = 0x0 then .ldReg (xField w) (yField w) else if nField w = 0x1 then .orReg (xField w) (yField w)
    else if nField w = 0x2 then .andReg (xField w) (yField w) else if nField w = 0x3 then .xorReg (xField w) (yField w)
    else if nField w = 0x4 then .addReg (xField w) (yField w) else if nField w = 0x5 then .sub (xField w) (yField w)
    else if nField w = 0x6 then .shr (xField w) (yField w) else if nField w = 0x7 then .subn (xField w) (yField w)
    else if nField w = 0xE then .shl (xField w) (yField w) else .nop8 (nnnField w) := by
  unfold decodeArithmetic
  split <;> simp_all

theorem decodeKeypad_eq (w : Word) : decodeKeypad w =
    if nnField w = 0x9E then .skp (xField w) else if nnField w = 0xA1 then .sknp (xField w)
    else .nopE (nnnField w) := by
  unfold decodeKeypad
  split <;> simp_all

theorem decodeTimersMemory_eq (w : Word) : decodeTimersMemory w =
    if nnField w = 0x07 then .ldRegDt (xField w) else if nnField w = 0x0A then .ldRegKey (xField w)
    else if nnField w = 0x15 then .ldDt (xField w) else if nnField w = 0x18 then .ldSt (xField w)
    else if nnField w = 0x1E then .addI (xField w) else if nnField w = 0x29 then .ldFont (xField w)
    else if nnField w = 0x33 then .ldBcd (xField w) else if nnField w = 0x55 then .storeRegs (xField w)
    else if nnField w = 0x65 then .loadRegs (xField w) else .nopF (nnnField w) := by
  unfold decodeTimersMemory
  split <;> simp_all

/-- Settles O3: the operands are the fields of the word, since they have the fields' values; the primary row is read off
`decode` at the leading nibble, and a family's row goes on by the lemma of its secondary table. -/
theorem decodeFollowsTheDispatchTable : Obligations.DecodeFollowsTheDispatchTable := by
  unfold Obligations.DecodeFollowsTheDispatchTable
  intro w x y n nn nnn hx hy hn hnn hnnn
  obtain rfl : x = xField w := Fin.ext (hx.trans (xField_val w).symm)
  obtain rfl : y = yField w := Fin.ext (hy.trans (yField_val w).symm)
  obtain rfl : n = nField w := BitVec.eq_of_toNat_eq (hn.trans (nField_toNat w).symm)
  obtain rfl : nn = nnField w := BitVec.eq_of_toNat_eq (hnn.trans (nnField_toNat w).symm)
  obtain rfl : nnn = nnnField w := BitVec.eq_of_toNat_eq (hnnn.trans (nnnField_toNat w).symm)
  rw [ofFin_xField, ← decodeSystem_eq, ← decodeArithmetic_eq, ← decodeKeypad_eq, ← decodeTimersMemory_eq]
  and_intros
  all_goals
    intro hop
    rw [decode, opField_of_div hop]
    rfl

end Sys2Proof
end

section
/-!
PROOFS. What a cycle makes of `pc` (R124), and what a word that no row of the opcode table selects does (R126): it decodes
to a no-op, because any other instruction is decoded from a word that its own row selects (R96).
-/

namespace Sys2Proof

/-! ### A word is its fields put together, in each of the formats (R91, R92) -/

theorem formatA_fields (w : Word) : formatA (opField w) (nnnField w) = w :=
  BitVec.extractLsb'_append_extractLsb' (w := 4) (len := 12)

theorem ignHighField_append_nnField (w : Word) : ignHighField w ++ nnField w = nnnField w :=
  BitVec.extractLsb'_append_extractLsb'_eq_extractLsb' rfl

theorem regBits_yField_append_nField (w : Word) : regBits (yField w) ++ nField w = nnField w :=
  BitVec.extractLsb'_append_extractLsb'_eq_extractLsb' rfl

theorem formatRI_fields (w : Word) : formatRI (opField w) (ignHighField w) (nnField w) = w := by
  rw [formatRI_eq, ignHighField_append_nnField, formatA_fields]

theorem formatRR_fields (w : Word) : formatRR (opField w) (ignHighField w) (regBits (yField w)) (nField w) = w := by
  rw [formatRR_eq, regBits_yField_append_nField, formatRI_fields]

/-! ### The row that selects a word, from the fields the row fixes (R96) -/

theorem rowMatches_of_op {w m : Word} {op : Nibble} (hop : opField w = op) (hm : op ++ 0#12 = m) :
    rowMatches (0xF000, m) w = true := by
  rw [← formatA_fields w, hop]
  exact Laws.TableRow.row_op op _ hm

theorem rowMatches_of_op_byte {w m : Word} {op : Nibble} {key : Byte} (hop : opField w = op) (hkey : nnField w = key)
    (hm : op ++ (0#4 ++ key) = m) : rowMatches (0xF0FF, m) w = true := by
  rw [← formatRI_fields w, hop, hkey]
  exact Laws.TableRow.row_op_byte op _ key hm

theorem rowMatches_of_op_nibble {w m : Word} {op key : Nibble} (hop : opField w = op) (hkey : nField w = key)
    (hm : op ++ (0#4 ++ (0#4 ++ key)) = m) : rowMatches (0xF00F, m) w = true := by
  rw [← formatRR_fields w, hop, hkey]
  exact Laws.TableRow.row_op_nibble op _ _ key hm

/-! ### The decoder answers with an instruction whose row selects the word

In each branch of a lookup the field it looked at is known; the default branch of a family is a fallback row, which fixes
the leading nibble alone (R97). -/

theorem rowMatches_decodeSystem {w : Word} (hop : opField w = 0x0) : rowMatches (rowOf (decodeSystem w)) w = true := by
  unfold decodeSystem
  split
  case h_3 => exact rowMatches_of_op hop rfl
  all_goals next hkey => exact rowMatches_of_op_byte hop hkey rfl

theorem rowMatches_decodeArithmetic {w : Word} (hop : opField w = 0x8) :
    rowMatches (rowOf (decodeArithmetic w)) w = true := by
  unfold decodeArithmetic
  split
  case h_10 => exact rowMatches_of_op hop rfl
  all_goals next hkey => exact rowMatches_of_op_nibble hop hkey rfl

theorem rowMatches_decodeKeypad {w : Word} (hop : opField w = 0xE) : rowMatches (rowOf (decodeKeypad w)) w = true := by
  unfold decodeKeypad
  split
  case h_3 => exact rowMatches_of_op hop rfl
  all_goals next hkey => exact rowMatches_of_op_byte hop hkey rfl

theorem rowMatches_decodeTimersMemory {w : Word} (hop : opField w = 0xF) :
    rowMatches (rowOf (decodeTimersMemory w)) w = true := by
  unfold decodeTimersMemory
  split
  case h_10 => exact rowMatches_of_op hop rfl
  all_goals next hkey => exact rowMatches_of_op_byte hop hkey rfl

theorem rowMatches_decode (w : Word) : rowMatches (rowOf (decode w)) w = true := by
  unfold decode
  split
  case h_1 hop => exact rowMatches_decodeSystem hop
  case h_9 hop => exact rowMatches_decodeArithmetic hop
  case h_15 hop => exact rowMatches_decodeKeypad hop
  case h_16 => -- the default branch: the leading nibble is none of 0 to E
    have hop : opField w = 0xF := by
      simp only [imp_false] at *
      bv_omega
    exact rowMatches_decodeTimersMemory hop
  all_goals next hop => exact rowMatches_of_op hop rfl

/-- The 34 rows of R96 are those of the instructions other than the no-ops. -/
theorem rowOf_mem_opcodeRows {i : Instr} (h : i.isNoOp = false) : rowOf i ∈ opcodeRows := by
  cases i with
  | nop0 rest | nop8 rest | nopE rest | nopF rest => cases h
  | _ => simp [rowOf, opcodeRows]

theorem isNoOp_decode_of_no_row {w : Word} (h : ∀ row ∈ opcodeRows, w &&& row.1 ≠ row.2) :
    (decode w).isNoOp = true := by
  by_contra hn
  exact h _ (rowOf_mem_opcodeRows (Bool.eq_false_of_not_eq_true hn)) (eq_of_beq (rowMatches_decode w))

end Sys2Proof

namespace Sys2Proof.Machine

/-! ### The no-op (R126) -/

theorem exec_noOp {i : Instr} (s : State) (h : i.isNoOp = true) : exec i s = .next s := by
  cases i with
  | nop0 rest | nop8 rest | nopE rest | nopF rest => rfl
  | _ => cases h

/-- Settles O49: a no-op's execute phase answers the state it was given, and a word that no row selects decodes to a
no-op, so its cycle is the fetch phase alone. -/
theorem noOpOnlyAdvances : Obligations.NoOpOnlyAdvances := by
  unfold Obligations.NoOpOnlyAdvances
  refine ⟨fun rest s => ⟨rfl, rfl, rfl, rfl⟩, fun s hfault hpc hrows => ?_⟩
  rw [step_of_fetch hfault hpc]
  exact exec_noOp _ (isNoOp_decode_of_no_row hrows)

/-! ### `pc` in the execute phase (R124) -/

/-- A data transfer writes `pc` in neither of its outcomes, unless its completed state does. -/
theorem State.transfer_pc {s done t : State} {count : Nat} (h : s.transfer count done = .next t)
    (hdone : done.pc = s.pc) : t.pc = s.pc := by
  rcases s.transfer_cases done count with ⟨-, hd⟩ | ⟨-, hr⟩
  · cases hd.symm.trans h
    exact hdone
  · cases hr.symm.trans h
    rfl

theorem exec_ldRegKey_of_lowestHeldKey {s : State} (x : Reg) {k : Key} (h : s.lowestHeldKey = some k) :
    exec (.ldRegKey x) s = .next (s.setReg x (BitVec.ofNat 8 k.val)) := by
  simp only [exec, execLdRegKey, h]

/-- With no key held FX0A goes back to itself (R211). -/
theorem exec_ldRegKey_of_no_key {s : State} (x : Reg) (h : ∀ k : Key, s.key[k] = false) :
    exec (.ldRegKey x) s = .next (s.jumpTo (s.pc - 2)) := by
  simp only [exec, execLdRegKey, State.lowestHeldKey_eq_none.mpr h]

theorem State.exists_lowestHeldKey {s : State} {k : Key} (h : s.key[k] = true) :
    ∃ j, s.lowestHeldKey = some j := by
  rw [← Option.ne_none_iff_exists']
  intro hnone
  simp [State.lowestHeldKey_eq_none.mp hnone k] at h

/-- Control flow, skips and a waiting FX0A apart, no instruction writes `pc`: the data transfers by the lemma of the
operation they share, FX0A by its finding a key, the others by definition. -/
theorem exec_pc {i : Instr} {s t : State} (hflow : changesFlow i = false)
    (hkey : ∀ x, i = .ldRegKey x → ∃ k : Key, s.key[k] = true) (h : exec i s = .next t) : t.pc = s.pc := by
  cases i with
  | jp nnn | call nnn | ret ign | jpV0 nnn => cases hflow
  | seImm x nn | sneImm x nn | seReg x y ign | sneReg x y ign | skp x | sknp x => cases hflow
  | drw x y n | ldBcd x | storeRegs x | loadRegs x => exact State.transfer_pc h rfl
  | ldRegKey x =>
    obtain ⟨k, hk⟩ := hkey x rfl
    obtain ⟨j, hj⟩ := State.exists_lowestHeldKey hk
    cases (exec_ldRegKey_of_lowestHeldKey x hj).symm.trans h
    rfl
  | _ => cases h; rfl

/-- Settles O8: the fetch phase adds 2 to `pc`, without wrapping since `pc` is at most 0xFFE, and the execute phase leaves
it there (`exec_pc`); an FX0A that finds no key takes the 2 back. -/
theorem programCounterAdvancesByTwo : Obligations.ProgramCounterAdvancesByTwo := by
  unfold Obligations.ProgramCounterAdvancesByTwo
  intro s hfault hpc hflow
  obtain ⟨t, ht⟩ := exec_total (decode s.fetchWord) (s.fetched s.fetchWord)
  refine ⟨t, (step_of_fetch hfault hpc).trans ht, fun hkey => ?advances, fun ⟨x, hx⟩ hnone => ?waits⟩
  case advances =>
    have hpc' : t.pc = s.pc + 2 := exec_pc (s := s.fetched s.fetchWord) hflow hkey ht
    bv_omega
  case waits =>
    rw [hx, exec_ldRegKey_of_no_key (s := s.fetched s.fetchWord) x hnone] at ht
    cases ht
    exact BitVec.add_sub_cancel s.pc 2

end Sys2Proof.Machine
end

section
/-!
PROOFS. Jumps and skips on an immediate (R142, R144, R145, R148): their rows of the opcode table fix the leading nibble
alone (R94, R96), and their execute phase writes `pc` alone.
-/

namespace Sys2Proof

/-- A word in a row with mask 0xF000 has the row's leading nibble (R96). -/
theorem opField_of_row {w m : Word} (h : w &&& 0xF000 = m) : opField w = opField m :=
  field_of_mask 12 4 h rfl

theorem decode_jp {w : Word} (h : w &&& 0xF000 = 0x1000) : decode w = .jp (nnnField w) := by
  rw [decode, opField_of_row h]
  rfl

theorem decode_seImm {w : Word} (h : w &&& 0xF000 = 0x3000) : decode w = .seImm (xField w) (nnField w) := by
  rw [decode, opField_of_row h]
  rfl

theorem decode_sneImm {w : Word} (h : w &&& 0xF000 = 0x4000) : decode w = .sneImm (xField w) (nnField w) := by
  rw [decode, opField_of_row h]
  rfl

theorem decode_jpV0 {w : Word} (h : w &&& 0xF000 = 0xB000) : decode w = .jpV0 (nnnField w) := by
  rw [decode, opField_of_row h]
  rfl

end Sys2Proof

namespace Sys2Proof.Machine

/-! ### The execute phases -/

theorem exec_jp (nnn : Addr12) (s : State) : exec (.jp nnn) s = .next (s.jumpTo (immediateAddress nnn)) := rfl

theorem exec_jpV0 (nnn : Addr12) (s : State) :
    exec (.jpV0 nnn) s = .next (s.jumpTo (widen (s.reg 0) + immediateAddress nnn)) := rfl

theorem exec_seImm (x : Reg) (nn : Byte) (s : State) :
    exec (.seImm x nn) s = .next (s.skipIf (s.reg x == nn)) := rfl

theorem exec_sneImm (x : Reg) (nn : Byte) (s : State) :
    exec (.sneImm x nn) s = .next (s.skipIf (s.reg x != nn)) := rfl

/-- A register and a twelve-bit immediate add without wrapping at 16 bits (R148): the sum is at most 0x10FE. -/
theorem widen_add_immediateAddress_toNat (b : Byte) (nnn : Addr12) :
    (widen b + immediateAddress nnn).toNat = b.toNat + nnn.toNat := by
  have hb : b.toNat < 256 := b.isLt
  have hn : nnn.toNat < 4096 := nnn.isLt
  rw [BitVec.toNat_add, widen_toNat, immediateAddress_toNat]
  omega

/-- Settles O23: the jump of the low twelve bits goes to the immediate zero-extended, and a jump writes `pc` alone. -/
theorem jumpSetsProgramCounter : Obligations.JumpSetsProgramCounter := by
  unfold Obligations.JumpSetsProgramCounter
  refine ⟨fun _ => decode_jp, fun nnn s => ?_⟩
  rw [exec_jp, immediateAddress_eq_ofNat]
  rfl

/-- Settles O26: both skips are `skipIf` of the comparison, which writes `pc` alone. -/
theorem skipsOnImmediate : Obligations.SkipsOnImmediate := by
  unfold Obligations.SkipsOnImmediate
  refine ⟨fun _ => decode_seImm, fun _ => decode_sneImm, fun x nn s => ⟨?seImm, ?sneImm⟩⟩
  case seImm => simp only [exec_seImm, State.skipIf_eq, State.reg, beq_iff_eq]
  case sneImm => simp only [exec_sneImm, State.skipIf_eq, State.reg, bne_iff_ne]

/-- Settles O28: the sum of V0 and the immediate stays below 2^16, so `pc` holds it unreduced. -/
theorem jumpWithOffsetAddsV0 : Obligations.JumpWithOffsetAddsV0 := by
  unfold Obligations.JumpWithOffsetAddsV0
  exact ⟨fun _ => decode_jpV0,
    fun nnn s => ⟨_, exec_jpV0 nnn s, widen_add_immediateAddress_toNat (s.reg 0) nnn, rfl⟩⟩

end Sys2Proof.Machine
end

section
/-!
PROOFS. The immediate load into a register (R160): its row of the opcode table fixes the leading nibble alone (R94, R96),
and its execute phase writes the one register.
-/

namespace Sys2Proof

theorem decode_ldImm {w : Word} (h : w &&& 0xF000 = 0x6000) : decode w = .ldImm (xField w) (nnField w) := by
  rw [decode, opField_of_row h]
  rfl

end Sys2Proof

namespace Sys2Proof.Machine

theorem exec_ldImm (x : Reg) (nn : Byte) (s : State) : exec (.ldImm x nn) s = .next (s.setReg x nn) := rfl

/-- Settles O29: the row with leading nibble 6 is the immediate load's, whose execute phase is the register write
`setReg`, which leaves every other field of the state. -/
theorem loadImmediateSetsRegister : Obligations.LoadImmediateSetsRegister := by
  unfold Obligations.LoadImmediateSetsRegister
  exact ⟨fun _ => decode_ldImm, exec_ldImm⟩

end Sys2Proof.Machine
end

section
/-!
PROOFS. Copy and bitwise logic (R171 to R174): rows of family 8XYn fix the leading nibble, which selects the family, and
the low nibble, which is its key (R95, R96), and the execute phase writes the one register.
-/

namespace Sys2Proof

/-! ### Rows with mask 0xF00F -/

/-- A word in a row with mask 0xF00F has the row's leading nibble (R96). -/
theorem opField_of_nibble_row {w m : Word} (h : w &&& 0xF00F = m) : opField w = opField m :=
  field_of_mask 12 4 h rfl

/-- A word in a row with mask 0xF00F has the row's low nibble (R96). -/
theorem nField_of_nibble_row {w m : Word} (h : w &&& 0xF00F = m) : nField w = nField m :=
  field_of_mask 0 4 h rfl

/-- The leading nibble of a row of family 8XYn sends the word on to the family's secondary table (R94). -/
theorem decode_of_arithmetic_row {w m : Word} (h : w &&& 0xF00F = m) (hop : opField m = 0x8) :
    decode w = decodeArithmetic w := by
  rw [decode, opField_of_nibble_row h, hop]
  rfl

theorem decode_ldReg {w : Word} (h : w &&& 0xF00F = 0x8000) : decode w = .ldReg (xField w) (yField w) := by
  rw [decode_of_arithmetic_row h rfl, decodeArithmetic, nField_of_nibble_row h]
  rfl

theorem decode_orReg {w : Word} (h : w &&& 0xF00F = 0x8001) : decode w = .orReg (xField w) (yField w) := by
  rw [decode_of_arithmetic_row h rfl, decodeArithmetic, nField_of_nibble_row h]
  rfl

theorem decode_andReg {w : Word} (h : w &&& 0xF00F = 0x8002) : decode w = .andReg (xField w) (yField w) := by
  rw [decode_of_arithmetic_row h rfl, decodeArithmetic, nField_of_nibble_row h]
  rfl

theorem decode_xorReg {w : Word} (h : w &&& 0xF00F = 0x8003) : decode w = .xorReg (xField w) (yField w) := by
  rw [decode_of_arithmetic_row h rfl, decodeArithmetic, nField_of_nibble_row h]
  rfl

end Sys2Proof

namespace Sys2Proof.Machine

/-! ### The execute phases -/

theorem exec_ldReg (x y : Reg) (s : State) : exec (.ldReg x y) s = .next (s.setReg x (s.reg y)) := rfl

theorem exec_orReg (x y : Reg) (s : State) : exec (.orReg x y) s = .next (s.setReg x (s.reg x ||| s.reg y)) := rfl

theorem exec_andReg (x y : Reg) (s : State) : exec (.andReg x y) s = .next (s.setReg x (s.reg x &&& s.reg y)) := rfl

theorem exec_xorReg (x y : Reg) (s : State) : exec (.xorReg x y) s = .next (s.setReg x (s.reg x ^^^ s.reg y)) := rfl

/-- Settles O31: each row decodes by its leading and low nibbles, and each execute phase is the register write `setReg`
of `V[X]`, which leaves every other field of the state and, unless X = 15, VF. -/
theorem copyAndLogicWriteOnlyTheirDestination : Obligations.CopyAndLogicWriteOnlyTheirDestination := by
  unfold Obligations.CopyAndLogicWriteOnlyTheirDestination
  exact ⟨fun _ => decode_ldReg, fun _ => decode_orReg, fun _ => decode_andReg, fun _ => decode_xorReg,
    fun x y s => ⟨exec_ldReg x y s, exec_orReg x y s, exec_andReg x y s, exec_xorReg x y s⟩⟩

end Sys2Proof.Machine
end

section
/-!
PROOFS. The display's writers (R193): the buffer `px` and the flag `redraw` are read together, so that each operation
keeps both by one lemma, and DXYN inside memory completes within its own cycle.
-/

namespace Sys2Proof.Machine

/-- What the host shows and clears (R34, R35): the pixel buffer and the redraw flag. -/
def State.display (s : State) : Frame × Bool := (s.px, s.redraw)

theorem State.display_eq_iff {s t : State} : t.display = s.display ↔ t.px = s.px ∧ t.redraw = s.redraw :=
  Prod.mk_inj

/-! ### The shared operations keep the display -/

theorem State.jumpTo_display (s : State) (a : Word) : (s.jumpTo a).display = s.display := rfl

theorem State.skipIf_display (s : State) (c : Bool) : (s.skipIf c).display = s.display :=
  display_eq_iff.mpr ⟨s.skipIf_px c, s.skipIf_redraw c⟩

theorem State.transfer_display {s done t : State} {count : Nat} (h : s.transfer count done = .next t)
    (hdone : done.display = s.display) : t.display = s.display := by
  rcases s.transfer_cases done count with ⟨-, hd⟩ | ⟨-, hr⟩
  · cases hd.symm.trans h
    exact hdone
  · cases hr.symm.trans h
    rfl

theorem State.keySkip_display {s t : State} {x : Reg} {skip : Bool → Bool} (h : s.keySkip x skip = .next t) :
    t.display = s.display := by
  rcases s.keySkip_cases x skip with ⟨_, hs⟩ | ⟨-, hr⟩
  · cases hs.symm.trans h
    exact s.skipIf_display _
  · cases hr.symm.trans h
    rfl

theorem State.push_display {s s' : State} {a : Word} (h : s.push a = some s') : s'.display = s.display := by
  obtain ⟨_, rfl⟩ := State.push_cases h
  rfl

theorem State.pop_display {s s' : State} {a : Word} (h : s.pop = some (a, s')) : s'.display = s.display := by
  obtain ⟨_, _, rfl⟩ := State.pop_cases h
  rfl

/-! ### The instructions -/

/-- Every instruction but 00E0 and DXYN keeps the display: those that fault or branch on the state by the lemma of the
operation they share, the skips of a compared register by `skipIf`, the others by definition. -/
theorem exec_display {i : Instr} {s t : State} (hcls : ∀ ign, i ≠ .cls ign) (hdrw : ∀ x y n, i ≠ .drw x y n)
    (h : exec i s = .next t) : t.display = s.display := by
  cases i with
  | cls ign => exact absurd rfl (hcls ign)
  | drw x y n => exact absurd rfl (hdrw x y n)
  | ret ign =>
    simp only [exec, execRet] at h
    split at h
    · next hp => cases h; exact (State.jumpTo_display _ _).trans (State.pop_display hp)
    · cases h; rfl
  | call nnn =>
    simp only [exec, execCall] at h
    split at h
    · next hp => cases h; exact (State.jumpTo_display _ _).trans (State.push_display hp)
    · cases h; rfl
  | seImm x nn | sneImm x nn | seReg x y ign | sneReg x y ign => cases h; exact s.skipIf_display _
  | skp x => exact State.keySkip_display (skip := fun held => held) h
  | sknp x => exact State.keySkip_display (skip := fun held => !held) h
  | ldRegKey x =>
    simp only [exec, execLdRegKey] at h
    split at h <;> cases h <;> rfl
  | ldBcd x | storeRegs x | loadRegs x => exact State.transfer_display h rfl
  | _ => cases h; rfl

/-- DXYN with its sprite inside memory answers with a state that has `pc` and `fault` as they were (R193). -/
theorem exec_drw_completes (x y : Reg) (n : Nibble) {s : State} (h : s.I.toNat + n.toNat ≤ 0x1000) :
    ∃ t, exec (.drw x y n) s = .next t ∧ t.pc = s.pc ∧ t.fault = s.fault :=
  ⟨_, s.transfer_of_inBounds _ n.toNat (.inr h), rfl, rfl⟩

/-! ### The host's operations -/

theorem tick_display (s : State) : (tick s).display = s.display := by
  unfold tick
  split <;> rfl

theorem loadImage_display {image : List Byte} {s t : State} (h : loadImage image s = .next t) :
    t.display = s.display := by
  unfold loadImage at h
  split at h
  · cases h; rfl
  · cases h

/-- RESET, CYCLE and REDRAW_ACK apart, no operation of the host writes the display (R231 to R233). -/
theorem perform_display {op : Operation} {s t : State} (hreset : op ≠ .reset) (hcycle : op ≠ .cycle)
    (hack : op ≠ .redrawAck) (h : perform op s = .next t) : t.display = s.display := by
  cases op with
  | reset => exact absurd rfl hreset
  | cycle => exact absurd rfl hcycle
  | redrawAck => exact absurd rfl hack
  | load image => exact loadImage_display h
  | tick => cases h; exact tick_display s
  | key k held => cases h; rfl

/-- REDRAW_ACK clears the flag and leaves the buffer (R234). -/
theorem perform_redrawAck_display {s t : State} (h : perform .redrawAck s = .next t) :
    t.display = (s.px, false) := by
  cases h
  rfl

/-- Settles O52: the instructions by `exec_display`, the host's operations by `perform_display` with REDRAW_ACK split
off, and DXYN inside memory by the in-bounds case of the data transfer it is. -/
theorem onlyDrawAndClearTouchTheDisplay : Obligations.OnlyDrawAndClearTouchTheDisplay := by
  unfold Obligations.OnlyDrawAndClearTouchTheDisplay
  refine ⟨fun i s t hcls hdrw h => ?instructions, fun op s t hreset hcycle h => ?operations,
    fun x y n s hin => exec_drw_completes x y n hin⟩
  case instructions => exact State.display_eq_iff.mp (exec_display hcls hdrw h)
  case operations =>
    by_cases hack : op = .redrawAck
    · subst hack
      obtain ⟨hpx, hredraw⟩ := Prod.mk_inj.mp (perform_redrawAck_display h)
      exact ⟨hpx, fun hne => absurd rfl hne, fun _ => hredraw⟩
    · obtain ⟨hpx, hredraw⟩ := State.display_eq_iff.mp (perform_display hreset hcycle hack h)
      exact ⟨hpx, fun _ => hredraw, fun heq => absurd heq hack⟩

end Sys2Proof.Machine
end

section
/-!
PROOFS. The timers and the glyph address (R210, R212, R213, R215): rows of family FXnn fix the leading nibble, which
selects the family, and the low byte, which is its key (R95, R96), and each execute phase writes one register.
-/

namespace Sys2Proof

/-! ### Rows with mask 0xF0FF -/

/-- A word in a row with mask 0xF0FF has the row's leading nibble (R96). -/
theorem opField_of_byte_row {w m : Word} (h : w &&& 0xF0FF = m) : opField w = opField m :=
  field_of_mask 12 4 h rfl

/-- A word in a row with mask 0xF0FF has the row's low byte (R96). -/
theorem nnField_of_byte_row {w m : Word} (h : w &&& 0xF0FF = m) : nnField w = nnField m :=
  field_of_mask 0 8 h rfl

/-- The leading nibble of a row of family FXnn sends the word on to the family's secondary table (R94). -/
theorem decode_of_timersMemory_row {w m : Word} (h : w &&& 0xF0FF = m) (hop : opField m = 0xF) :
    decode w = decodeTimersMemory w := by
  rw [decode, opField_of_byte_row h, hop]
  rfl

theorem decode_ldRegDt {w : Word} (h : w &&& 0xF0FF = 0xF007) : decode w = .ldRegDt (xField w) := by
  rw [decode_of_timersMemory_row h rfl, decodeTimersMemory, nnField_of_byte_row h]
  rfl

theorem decode_ldDt {w : Word} (h : w &&& 0xF0FF = 0xF015) : decode w = .ldDt (xField w) := by
  rw [decode_of_timersMemory_row h rfl, decodeTimersMemory, nnField_of_byte_row h]
  rfl

theorem decode_ldSt {w : Word} (h : w &&& 0xF0FF = 0xF018) : decode w = .ldSt (xField w) := by
  rw [decode_of_timersMemory_row h rfl, decodeTimersMemory, nnField_of_byte_row h]
  rfl

theorem decode_ldFont {w : Word} (h : w &&& 0xF0FF = 0xF029) : decode w = .ldFont (xField w) := by
  rw [decode_of_timersMemory_row h rfl, decodeTimersMemory, nnField_of_byte_row h]
  rfl

end Sys2Proof

namespace Sys2Proof.Machine

/-! ### The execute phases -/

theorem exec_ldRegDt (x : Reg) (s : State) : exec (.ldRegDt x) s = .next (s.setReg x s.DT) := rfl

theorem exec_ldDt (x : Reg) (s : State) : exec (.ldDt x) s = .next { s with DT := s.reg x } := rfl

theorem exec_ldSt (x : Reg) (s : State) : exec (.ldSt x) s = .next { s with ST := s.reg x } := rfl

theorem exec_ldFont (x : Reg) (s : State) : exec (.ldFont x) s = .next { s with I := glyphAddress (s.reg x) } := rfl

/-- A glyph's address is the number of R215: at most 15 * 5, it fits the 16 bits of `I`. -/
theorem glyphAddress_eq_ofNat (vx : Byte) : glyphAddress vx = BitVec.ofNat 16 (vx.toNat % 16 * 5) := by
  apply BitVec.eq_of_toNat_eq
  rw [glyphAddress_toNat, BitVec.toNat_ofNat]
  omega

/-- Settles O39: each row decodes by its leading nibble and low byte; FX07's execute phase is the register write
`setReg` of the delay timer, and those of FX15 and FX18 update one timer field. -/
theorem timerReadsAndWrites : Obligations.TimerReadsAndWrites := by
  unfold Obligations.TimerReadsAndWrites
  exact ⟨fun _ => decode_ldRegDt, fun _ => decode_ldDt, fun _ => decode_ldSt,
    fun x s => ⟨exec_ldRegDt x s, exec_ldDt x s, exec_ldSt x s⟩⟩

/-- Settles O43: the row decodes by its leading nibble and low byte, and the address FX29 leaves in `I` is the product,
by `glyphAddress_eq_ofNat`. -/
theorem glyphAddressIsFiveTimesTheLowNibble : Obligations.GlyphAddressIsFiveTimesTheLowNibble := by
  unfold Obligations.GlyphAddressIsFiveTimesTheLowNibble
  refine ⟨fun _ => decode_ldFont, fun x s => ?_⟩
  rw [exec_ldFont, glyphAddress_eq_ofNat]
  rfl

end Sys2Proof.Machine
end

section
/-!
PROOFS. The round trips of decoding and encoding (30_encoding.md): a format's fields give its operands back, a word
is its fields put together, and a no-op is told from its family by a key that the family does not recognise (R97).
-/

namespace Sys2Proof

/-! ### Decoding what was encoded -/

/-- The leading nibble of a format decides the primary row; in a family the key decides the rest, and the
well-formedness of a no-op is that no key does. -/
theorem decode_encode {i : Instr} (h : i.wf = true) : decode (encode i) = i := by
  cases i with
  | cls ign | ret ign => simp [encode, decode, decodeSystem]
  | ldReg x y | orReg x y | andReg x y | xorReg x y | addReg x y | sub x y | shr x y | subn x y | shl x y =>
    simp [encode, decode, decodeArithmetic]
  | skp x | sknp x => simp [encode, decode, decodeKeypad]
  | ldRegDt x | ldRegKey x | ldDt x | ldSt x | addI x | ldFont x | ldBcd x | storeRegs x | loadRegs x =>
    simp [encode, decode, decodeTimersMemory]
  | nop0 rest => simp_all [Instr.wf, systemKeys, encode, decode, decodeSystem_eq, nnField_formatA]
  | nop8 rest => simp_all [Instr.wf, arithmeticKeys, encode, decode, decodeArithmetic_eq, nField_formatA]
  | nopE rest => simp_all [Instr.wf, keypadKeys, encode, decode, decodeKeypad_eq, nnField_formatA]
  | nopF rest => simp_all [Instr.wf, timerMemoryKeys, encode, decode, decodeTimersMemory_eq, nnField_formatA]
  | _ => simp [encode, decode]

/-- Settles O1: each format gives its operands back, and the key of a well-formed no-op sends its word to the
default of its family (`decode_encode`). -/
theorem decodeOfEncodeIsIdentity : Obligations.DecodeOfEncodeIsIdentity := by
  unfold Obligations.DecodeOfEncodeIsIdentity
  exact fun _ => decode_encode

/-! ### A word from the fields its row fixes (R92) -/

theorem formatA_of_op {w : Word} {op : Nibble} (hop : opField w = op) : formatA op (nnnField w) = w := by
  rw [← hop, formatA_fields]

theorem formatRI_of_fields {w : Word} {op : Nibble} {key : Byte} (hop : opField w = op) (hkey : nnField w = key) :
    formatRI op (ignHighField w) key = w := by
  rw [← hop, ← hkey, formatRI_fields]

theorem formatRR_of_fields {w : Word} {op key : Nibble} (hop : opField w = op) (hkey : nField w = key) :
    formatRR op (ignHighField w) (regBits (yField w)) key = w := by
  rw [← hop, ← hkey, formatRR_fields]

/-- The key byte of a word's low twelve bits is the word's low byte. -/
theorem keyByte_nnnField (w : Word) : keyByte (nnnField w) = nnField w := by
  rw [← nnField_formatA (opField w), formatA_fields]

/-- The key nibble of a word's low twelve bits is the word's low nibble. -/
theorem keyNibble_nnnField (w : Word) : keyNibble (nnnField w) = nField w := by
  rw [← nField_formatA (opField w), formatA_fields]

/-! ### Encoding what was decoded

In each branch of a lookup the field it looked at is known, and with it the word is its format; in the default branch of a
family the key is none of the family's. -/

/-- A well-formed instruction, and the word is its encoding. -/
def IsInstrOf (w : Word) (i : Instr) : Prop := i.wf = true ∧ encode i = w

theorem isInstrOf_decodeSystem {w : Word} (hop : opField w = 0x0) : IsInstrOf w (decodeSystem w) := by
  unfold decodeSystem
  split
  case h_3 => exact ⟨by simp_all [Instr.wf, systemKeys, keyByte_nnnField], formatA_of_op hop⟩
  all_goals next hkey => exact ⟨rfl, formatRI_of_fields hop hkey⟩

theorem isInstrOf_decodeArithmetic {w : Word} (hop : opField w = 0x8) : IsInstrOf w (decodeArithmetic w) := by
  unfold decodeArithmetic
  split
  case h_10 => exact ⟨by simp_all [Instr.wf, arithmeticKeys, keyNibble_nnnField], formatA_of_op hop⟩
  all_goals next hkey => exact ⟨rfl, formatRR_of_fields hop hkey⟩

theorem isInstrOf_decodeKeypad {w : Word} (hop : opField w = 0xE) : IsInstrOf w (decodeKeypad w) := by
  unfold decodeKeypad
  split
  case h_3 => exact ⟨by simp_all [Instr.wf, keypadKeys, keyByte_nnnField], formatA_of_op hop⟩
  all_goals next hkey => exact ⟨rfl, formatRI_of_fields hop hkey⟩

theorem isInstrOf_decodeTimersMemory {w : Word} (hop : opField w = 0xF) : IsInstrOf w (decodeTimersMemory w) := by
  unfold decodeTimersMemory
  split
  case h_10 => exact ⟨by simp_all [Instr.wf, timerMemoryKeys, keyByte_nnnField], formatA_of_op hop⟩
  all_goals next hkey => exact ⟨rfl, formatRI_of_fields hop hkey⟩

theorem isInstrOf_decode (w : Word) : IsInstrOf w (decode w) := by
  unfold decode
  split
  case h_1 hop => exact isInstrOf_decodeSystem hop
  case h_9 hop => exact isInstrOf_decodeArithmetic hop
  case h_15 hop => exact isInstrOf_decodeKeypad hop
  case h_16 => -- the default branch: the leading nibble is none of 0 to E
    have hop : opField w = 0xF := by
      simp only [imp_false] at *
      bv_omega
    exact isInstrOf_decodeTimersMemory hop
  case h_2 hop | h_3 hop | h_11 hop | h_12 hop => exact ⟨rfl, formatA_of_op hop⟩
  case h_4 hop | h_5 hop | h_7 hop | h_8 hop | h_13 hop => exact ⟨rfl, formatRI_of_fields hop rfl⟩
  case h_6 hop | h_10 hop | h_14 hop => exact ⟨rfl, formatRR_of_fields hop rfl⟩

/-- Settles O2: every branch of the dispatch gives a well-formed instruction that encodes to the word
(`isInstrOf_decode`). -/
theorem encodeOfDecodeIsIdentity : Obligations.EncodeOfDecodeIsIdentity := by
  unfold Obligations.EncodeOfDecodeIsIdentity
  exact isInstrOf_decode

/-! ### The rows that select a word (R96) -/

theorem opField_of_rowMatches {row : Word × Word} {w : Word} (hrow : row ∈ opcodeRows)
    (h : rowMatches row w = true) : opField w = opField row.2 := by
  have covered : opcodeRows.all (fun r => opField r.1 == BitVec.allOnes 4) = true := by decide
  exact field_of_mask 12 4 (eq_of_beq h) (eq_of_beq (List.all_eq_true.mp covered row hrow))

theorem nnField_of_rowMatches {row : Word × Word} {w : Word} (h : rowMatches row w = true)
    (hmask : nnField row.1 = 0xFF) : nnField w = nnField row.2 :=
  field_of_mask 0 8 (eq_of_beq h) hmask

theorem nField_of_rowMatches {row : Word × Word} {w : Word} (h : rowMatches row w = true)
    (hmask : nField row.1 = 0xF) : nField w = nField row.2 :=
  field_of_mask 0 4 (eq_of_beq h) hmask

/-- Two rows that select the same word agree on the bits that both fix. -/
theorem agree_of_rowMatches {r r' : Word × Word} {w : Word} (h : rowMatches r w = true)
    (h' : rowMatches r' w = true) : r.2 &&& r'.1 = r'.2 &&& r.1 := by
  rw [← eq_of_beq h, ← eq_of_beq h', BitVec.and_assoc, BitVec.and_assoc, BitVec.and_comm r.1]

/-- No two different rows agree on the bits that both fix. -/
theorem opcodeRows_disagree :
    opcodeRows.all (fun r => opcodeRows.all fun r' => r.2 &&& r'.1 != r'.2 &&& r.1 || r == r') = true := by
  decide +kernel

/-- The rows do not overlap. -/
theorem row_unique {r r' : Word × Word} {w : Word} (hr : r ∈ opcodeRows) (hr' : r' ∈ opcodeRows)
    (h : rowMatches r w = true) (h' : rowMatches r' w = true) : r = r' := by
  have hpair := List.all_eq_true.mp (List.all_eq_true.mp opcodeRows_disagree r hr) r' hr'
  simpa [agree_of_rowMatches h h'] using hpair

theorem filter_rowMatches_eq_singleton {r : Word × Word} {w : Word} (hr : r ∈ opcodeRows)
    (h : rowMatches r w = true) : opcodeRows.filter (fun row => rowMatches row w) = [r] := by
  have hiff : ∀ row ∈ opcodeRows, rowMatches row w = (row == r) := by
    intro row hrow
    rw [Bool.eq_iff_iff, beq_iff_eq]
    exact ⟨fun hm => row_unique hrow hr hm h, fun e => e ▸ h⟩
  have nodup : opcodeRows.Nodup := by decide
  rw [List.filter_congr hiff, List.filter_beq, List.count_eq_one_of_mem nodup hr, List.replicate_one]

/-- A row with the leading nibble of a family fixes the family's key, to one that the family recognises. -/
def fixesFamilyKey (row : Word × Word) : Bool :=
  decide ((opField row.2 = 0x0 → nnField row.1 = 0xFF ∧ nnField row.2 ∈ systemKeys) ∧
    (opField row.2 = 0x8 → nField row.1 = 0xF ∧ nField row.2 ∈ arithmeticKeys) ∧
    (opField row.2 = 0xE → nnField row.1 = 0xFF ∧ nnField row.2 ∈ keypadKeys) ∧
    (opField row.2 = 0xF → nnField row.1 = 0xFF ∧ nnField row.2 ∈ timerMemoryKeys))

theorem all_fixesFamilyKey : opcodeRows.all fixesFamilyKey = true := by decide

/-- No row selects the word of a no-op (R97): the row's key would be one the family recognises. -/
theorem not_rowMatches_encode_noOp {i : Instr} {row : Word × Word} (hwf : i.wf = true) (hno : i.isNoOp = true)
    (hrow : row ∈ opcodeRows) : rowMatches row (encode i) = false := by
  rw [← Bool.not_eq_true]
  intro h
  have hop := opField_of_rowMatches hrow h
  obtain ⟨f0, f8, fE, fF⟩ := of_decide_eq_true (List.all_eq_true.mp all_fixesFamilyKey row hrow)
  cases i with
  | nop0 rest =>
    obtain ⟨hmask, hmem⟩ := f0 (hop ▸ opField_formatA 0x0 rest)
    have hkey := nnField_of_rowMatches h hmask
    simp_all [Instr.wf, encode, nnField_formatA]
  | nop8 rest =>
    obtain ⟨hmask, hmem⟩ := f8 (hop ▸ opField_formatA 0x8 rest)
    have hkey := nField_of_rowMatches h hmask
    simp_all [Instr.wf, encode, nField_formatA]
  | nopE rest =>
    obtain ⟨hmask, hmem⟩ := fE (hop ▸ opField_formatA 0xE rest)
    have hkey := nnField_of_rowMatches h hmask
    simp_all [Instr.wf, encode, nnField_formatA]
  | nopF rest =>
    obtain ⟨hmask, hmem⟩ := fF (hop ▸ opField_formatA 0xF rest)
    have hkey := nnField_of_rowMatches h hmask
    simp_all [Instr.wf, encode, nnField_formatA]
  | _ => cases hno

/-- Settles O4: an instruction's own row selects its word (`rowMatches_decode`) and no other does, since the rows do
not overlap; the word of a no-op is selected by none. -/
theorem everyWordSelectsOneRowOrTheNoOp : Obligations.EveryWordSelectsOneRowOrTheNoOp := by
  unfold Obligations.EveryWordSelectsOneRowOrTheNoOp
  intro w
  split
  case isTrue hno =>
    obtain ⟨hwf, henc⟩ := isInstrOf_decode w
    rw [List.filter_eq_nil_iff]
    intro row hrow
    rw [← henc, not_rowMatches_encode_noOp hwf hno hrow]
    exact Bool.false_ne_true
  case isFalse hno =>
    exact filter_rowMatches_eq_singleton (rowOf_mem_opcodeRows (Bool.eq_false_of_not_eq_true hno)) (rowMatches_decode w)

/-- Settles O5: ten words, decoded by evaluation. -/
theorem sampleWordsDecode : Obligations.SampleWordsDecode := by
  unfold Obligations.SampleWordsDecode
  decide

end Sys2Proof
end

section
/-!
PROOFS. The execute phase, said once: which instruction raises what in which state (R250 to R255), what an
instruction that raises nothing leaves, and that there is no third case. The frames of all instructions follow from
these.
-/

namespace Sys2Proof.Machine

/-! ### What an instruction raises, and what it leaves -/

/-- The record of a data transfer of `count` bytes at `base`, if it reaches outside memory (R254). -/
def transferFault (base : Word) (count : Nat) : Option FaultRecord :=
  if transferOutOfBounds base count then some ⟨.addressOutOfBounds, lowestOffending base⟩ else none

/-- The record of a key skip whose register holds `v`, if that is no key (R255). -/
def keyFault (v : Byte) : Option FaultRecord :=
  if 15 < v.toNat then some ⟨.keyIndexOutOfRange, widen v⟩ else none

/-- The record an instruction's execute phase makes, if it raises (R250 to R255). -/
def raises (i : Instr) (s : State) : Option FaultRecord :=
  match i with
  | .ret _ => if s.sp.val = 0 then some ⟨.stackUnderflow, 0⟩ else none
  | .call _ => if s.sp.val = 16 then some ⟨.stackOverflow, 16⟩ else none
  | .drw _ _ n => transferFault s.I n.toNat
  | .ldBcd _ => transferFault s.I 3
  | .storeRegs x | .loadRegs x => transferFault s.I (x.val + 1)
  | .skp x | .sknp x => keyFault (s.reg x)
  | _ => none

/-- The state an instruction leaves when it raises nothing, each written as an update of single fields. An instruction
that has no other outcome leaves what `exec` answers. -/
def completed (i : Instr) (s : State) : State :=
  match i with
  | .ret _ => { s with sp := ⟨s.sp.val - 1, by omega⟩, pc := s.stack[s.sp.val - 1] }
  | .call nnn =>
    { s with
      stack := s.stack.setIfInBounds s.sp.val s.pc
      sp := Fin.ofNat 17 (s.sp.val + 1)
      pc := immediateAddress nnn }
  | .seImm x nn => { s with pc := if s.reg x = nn then s.pc + 2 else s.pc }
  | .sneImm x nn => { s with pc := if s.reg x ≠ nn then s.pc + 2 else s.pc }
  | .seReg x y _ => { s with pc := if s.reg x = s.reg y then s.pc + 2 else s.pc }
  | .sneReg x y _ => { s with pc := if s.reg x ≠ s.reg y then s.pc + 2 else s.pc }
  | .skp x => { s with pc := if s.key[(s.reg x).toNat]? = some true then s.pc + 2 else s.pc }
  | .sknp x => { s with pc := if s.key[(s.reg x).toNat]? = some false then s.pc + 2 else s.pc }
  | .drw x y n =>
    let drawn := drawSprite (s.reg x) (s.reg y) (s.mem.readBlock s.I.toNat n.toNat) s.px
    { s with V := s.V.set 15 (flagByte drawn.2), px := drawn.1, redraw := true }
  | .ldRegKey x =>
    { s with
      V := s.lowestHeldKey.elim s.V fun k => s.V.set x (BitVec.ofNat 8 k.val)
      pc := s.lowestHeldKey.elim (s.pc - 2) fun _ => s.pc }
  | .ldBcd x => { s with mem := s.mem.writeBlock s.I.toNat (decimalDigits (s.reg x)) }
  | .storeRegs x => s.storeBlock x
  | .loadRegs x => s.loadBlock x
  | i =>
    match exec i s with
    | .next t => t
    | .fault _ | .refused _ => s

/-- What an instruction's execute phase leaves: the state with the record alone, or the completed one. -/
def executed (i : Instr) (s : State) : State :=
  match raises i s with
  | some r => { s with fault := some r }
  | none => completed i s

theorem executed_of_raises {i : Instr} {s : State} {r : FaultRecord} (h : raises i s = some r) :
    executed i s = { s with fault := some r } := by
  simp only [executed, h]

theorem executed_of_raises_none {i : Instr} {s : State} (h : raises i s = none) : executed i s = completed i s := by
  simp only [executed, h]

/-! ### Every instruction answers accordingly -/

theorem transferFault_eq_none {base : Word} {count : Nat} :
    transferFault base count = none ↔ count = 0 ∨ base.toNat + count ≤ 0x1000 := by
  have h := transferOutOfBounds_iff base count
  unfold transferFault
  split <;> simp_all <;> omega

theorem transfer_eq_executed (i : Instr) {s : State} {count : Nat} (hr : raises i s = transferFault s.I count) :
    s.transfer count (completed i s) = .next (executed i s) := by
  unfold executed
  rw [hr]
  unfold State.transfer transferFault
  split <;> rfl

theorem keySkip_eq_executed (i : Instr) {s : State} {x : Reg} {skip : Bool → Bool}
    (hr : raises i s = keyFault (s.reg x))
    (hc : ∀ h : (s.reg x).toNat < 16, completed i s = s.skipIf (skip s.key[(s.reg x).toNat])) :
    s.keySkip x skip = .next (executed i s) := by
  rcases s.keySkip_cases x skip with ⟨hlt, h⟩ | ⟨hgt, h⟩
  · rw [h, executed_of_raises_none (hr.trans (if_neg (by omega))), hc hlt]
  · rw [h, executed_of_raises (hr.trans (if_pos hgt))]
    rfl

theorem State.skipIf_of_iff (s : State) {c : Bool} {p : Prop} [Decidable p] (h : c = true ↔ p) :
    s.skipIf c = { s with pc := if p then s.pc + 2 else s.pc } := by
  rw [State.skipIf_eq]
  simp only [h]

theorem exec_ret_eq (ign : Nibble) (s : State) : exec (.ret ign) s = .next (executed (.ret ign) s) := by
  by_cases h : s.sp.val = 0
  · have hr : raises (.ret ign) s = some ⟨.stackUnderflow, 0⟩ := if_pos h
    simp only [exec, execRet, State.pop_of_empty s h, executed_of_raises hr]
    rfl
  · have hr : raises (.ret ign) s = none := if_neg h
    simp only [exec, execRet, State.pop_of_pos s (by omega), executed_of_raises_none hr]
    rfl

theorem exec_call_eq (nnn : Addr12) (s : State) : exec (.call nnn) s = .next (executed (.call nnn) s) := by
  by_cases h : s.sp.val = 16
  · have hr : raises (.call nnn) s = some ⟨.stackOverflow, 16⟩ := if_pos h
    simp only [exec, execCall, State.push_of_full s _ h, executed_of_raises hr]
    rfl
  · have hr : raises (.call nnn) s = none := if_neg h
    have hlt : s.sp.val < 16 := by omega
    simp only [exec, execCall, State.push_of_lt s _ hlt, executed_of_raises_none hr]
    have hset : s.stack.setIfInBounds s.sp.val s.pc = s.stack.set s.sp.val s.pc := by
      simp [Vector.setIfInBounds, Vector.set, Array.setIfInBounds, hlt]
    have hsp : Fin.ofNat 17 (s.sp.val + 1) = ⟨s.sp.val + 1, by omega⟩ := Fin.ext (Nat.mod_eq_of_lt (by omega))
    simp only [completed, State.jumpTo, hset, hsp]

theorem exec_ldRegKey_eq (x : Reg) (s : State) : exec (.ldRegKey x) s = .next (executed (.ldRegKey x) s) := by
  cases h : s.lowestHeldKey <;> simp [exec, execLdRegKey, executed, raises, completed, h, State.setReg, State.jumpTo]

theorem exec_eq (i : Instr) (s : State) : exec i s = .next (executed i s) := by
  cases i with
  | ret ign => exact exec_ret_eq ign s
  | call nnn => exact exec_call_eq nnn s
  | drw x y n => exact transfer_eq_executed (.drw x y n) rfl
  | ldBcd x => exact transfer_eq_executed (.ldBcd x) rfl
  | storeRegs x => exact transfer_eq_executed (.storeRegs x) rfl
  | loadRegs x => exact transfer_eq_executed (.loadRegs x) rfl
  | skp x =>
    exact keySkip_eq_executed (.skp x) (skip := fun held => held) rfl fun h => (s.skipIf_of_iff (by simp [h])).symm
  | sknp x =>
    exact keySkip_eq_executed (.sknp x) (skip := fun held => !held) rfl fun h => (s.skipIf_of_iff (by simp [h])).symm
  | seImm x nn => exact congrArg _ (s.skipIf_of_iff beq_iff_eq)
  | sneImm x nn => exact congrArg _ (s.skipIf_of_iff bne_iff_ne)
  | seReg x y ign => exact congrArg _ (s.skipIf_of_iff beq_iff_eq)
  | sneReg x y ign => exact congrArg _ (s.skipIf_of_iff bne_iff_ne)
  | ldRegKey x => exact exec_ldRegKey_eq x s
  | _ => rfl

theorem exec_of_raises {i : Instr} {s : State} {r : FaultRecord} (h : raises i s = some r) :
    exec i s = .next { s with fault := some r } := by
  rw [exec_eq, executed_of_raises h]

theorem exec_of_raises_none {i : Instr} {s : State} (h : raises i s = none) : exec i s = .next (completed i s) := by
  rw [exec_eq, executed_of_raises_none h]

/-- The state after an execute phase, as it is used: the record alone is new, or the instruction completes. -/
theorem exec_cases {i : Instr} {s t : State} (h : exec i s = .next t) :
    (∃ r, raises i s = some r ∧ t = { s with fault := some r }) ∨ (raises i s = none ∧ t = completed i s) := by
  cases (exec_eq i s).symm.trans h
  cases hr : raises i s with
  | some r => exact .inl ⟨r, rfl, executed_of_raises hr⟩
  | none => exact .inr ⟨rfl, executed_of_raises_none hr⟩

/-- A reading of the state that looks neither at the record nor at what the instruction writes is kept. -/
theorem exec_keeps {α : Type} (read : State → α) {i : Instr} {s t : State} (h : exec i s = .next t)
    (hfault : ∀ r, read { s with fault := some r } = read s) (hdone : read (completed i s) = read s) :
    read t = read s := by
  rcases exec_cases h with ⟨r, -, rfl⟩ | ⟨-, rfl⟩
  · exact hfault r
  · exact hdone

theorem completed_fault (i : Instr) (s : State) : (completed i s).fault = s.fault := by
  cases i <;> rfl

/-! ### What raises (R250 to R255) -/

/-- In a state without a record, the record afterwards is the one the instruction raises. -/
theorem exec_fault {i : Instr} {s t : State} (hs : s.fault = none) (h : exec i s = .next t) : t.fault = raises i s := by
  rcases exec_cases h with ⟨r, hr, rfl⟩ | ⟨hr, rfl⟩
  · exact hr.symm
  · rw [completed_fault, hs, hr]

theorem transferFault_eq (base : Word) (count : Nat) : transferFault base count =
    if 1 ≤ count ∧ base.toNat + count - 1 > 0xFFF then
      some ⟨.addressOutOfBounds, BitVec.ofNat 16 (max base.toNat 0x1000)⟩ else none := by
  unfold transferFault
  rw [lowestOffending_eq_ofNat]
  exact if_congr (transferOutOfBounds_iff base count) rfl rfl

/-- A transfer of one byte more than `k` has its last address `k` bytes up. -/
theorem transferFault_succ (base : Word) (k : Nat) : transferFault base (k + 1) =
    if base.toNat + k > 0xFFF then
      some ⟨.addressOutOfBounds, BitVec.ofNat 16 (max base.toNat 0x1000)⟩ else none := by
  rw [transferFault_eq]
  exact if_congr (by omega) rfl rfl

theorem keyFault_eq (v : Byte) : keyFault v =
    if v.toNat > 15 then some ⟨.keyIndexOutOfRange, BitVec.ofNat 16 v.toNat⟩ else none := by
  rw [← widen_eq_ofNat]
  rfl

/-- Settles O13: the record afterwards is what `raises` says (`exec_fault`), its bounds as the statement spells
them. -/
theorem instructionsRaiseExactlyTheirFaults : Obligations.InstructionsRaiseExactlyTheirFaults := by
  unfold Obligations.InstructionsRaiseExactlyTheirFaults
  intro i s t hs h
  rw [exec_fault hs h]
  cases i with
  | ret ign => exact if_congr (Fin.ext_iff (b := 0)).symm rfl rfl
  | call nnn => exact if_congr (Fin.ext_iff (b := 16)).symm rfl rfl
  | drw x y n => exact transferFault_eq s.I n.toNat
  | ldBcd x => exact transferFault_succ s.I 2
  | storeRegs x | loadRegs x => exact transferFault_succ s.I x.val
  | skp x | sknp x => exact keyFault_eq s.V[x]
  | _ => rfl

/-- Settles O14: outside memory each of the four raises, and an instruction that raises writes the record alone. -/
theorem transfersOutsideMemoryWriteNothing : Obligations.TransfersOutsideMemoryWriteNothing := by
  unfold Obligations.TransfersOutsideMemoryWriteNothing
  intro s
  refine ⟨fun x y n h1 h2 => ?_, fun x h => ?_, fun x h => ?_, fun x h => ?_⟩
  · exact exec_of_raises ((transferFault_eq s.I n.toNat).trans (if_pos ⟨h1, h2⟩))
  · exact exec_of_raises ((transferFault_succ s.I 2).trans (if_pos h))
  · exact exec_of_raises ((transferFault_succ s.I x.val).trans (if_pos h))
  · exact exec_of_raises ((transferFault_succ s.I x.val).trans (if_pos h))

/-- Every record an execute phase can make. -/
theorem raises_cases {i : Instr} {s : State} {r : FaultRecord} (h : raises i s = some r) :
    r = ⟨.stackUnderflow, 0⟩ ∨ r = ⟨.stackOverflow, 16⟩ ∨ r = ⟨.addressOutOfBounds, lowestOffending s.I⟩ ∨
    ∃ v : Byte, 15 < v.toNat ∧ r = ⟨.keyIndexOutOfRange, widen v⟩ := by
  cases i with
  | ret ign =>
    obtain ⟨-, ⟨⟩⟩ := Option.ite_none_right_eq_some.mp h
    exact .inl rfl
  | call nnn =>
    obtain ⟨-, ⟨⟩⟩ := Option.ite_none_right_eq_some.mp h
    exact .inr (.inl rfl)
  | drw x y n | ldBcd x | storeRegs x | loadRegs x =>
    obtain ⟨-, ⟨⟩⟩ := Option.ite_none_right_eq_some.mp h
    exact .inr (.inr (.inl rfl))
  | skp x | sknp x =>
    obtain ⟨hgt, ⟨⟩⟩ := Option.ite_none_right_eq_some.mp h
    exact .inr (.inr (.inr ⟨_, hgt, rfl⟩))
  | _ => cases h

theorem raises_cause {i : Instr} {s : State} {r : FaultRecord} (h : raises i s = some r) :
    r.cause ≠ .fetchOutOfBounds := by
  obtain rfl | rfl | rfl | ⟨v, -, rfl⟩ := raises_cases h <;> simp

/-- Settles O12: the record is made either by the fetch, before `ir` and `pc` are written, or by the execute phase
of the state the fetch left, which then writes the record alone. A completed instruction makes no record. -/
theorem faultsArePrecise : Obligations.FaultsArePrecise := by
  unfold Obligations.FaultsArePrecise
  intro s t r hs hstep hr
  rcases step_cases s with ⟨hf, -⟩ | ⟨-, -, h⟩ | ⟨-, -, h⟩
  · simp [State.faulted, hs] at hf
  · cases h.symm.trans hstep
    cases hr
    exact ⟨fun _ => rfl, fun hne => absurd rfl hne⟩
  · have hexec := h.symm.trans hstep
    rcases exec_cases hexec with ⟨r', hr', rfl⟩ | ⟨-, rfl⟩
    · cases hr
      exact ⟨fun hc => absurd hc (raises_cause hr'), fun _ => rfl⟩
    · rw [completed_fault, State.fetched_fault, hs] at hr
      cases hr

end Sys2Proof.Machine
end

section
/-!
PROOFS. What instructions and operations leave unchanged: parameters (R10, R41), registers (R23), memory (20_memory.md),
stack, `sp`, `I` and `ir` (R20), keys and timers, and that nothing is read from `redraw` (R35).
-/

namespace Sys2Proof.Machine

/-! ### Parameters (R10, R41) -/

theorem completed_params (i : Instr) (s : State) : (completed i s).params = s.params := by
  cases i with
  | ldBcd x | storeRegs x => exact congrArg (Config.Params.mk · _) (Memory.writeBlock_font ..)
  | _ => rfl

theorem exec_params {i : Instr} {s t : State} (h : exec i s = .next t) : t.params = s.params :=
  exec_keeps State.params h (fun _ => rfl) (completed_params i s)

/-- A reading that the record, the fetch phase and the completed instruction leave is kept by a step. -/
theorem step_keeps {α : Type} (read : State → α) {s t : State} (h : step s = .next t)
    (hfault : ∀ s r, read { s with fault := some r } = read s) (hfetch : read (s.fetched s.fetchWord) = read s)
    (hdone : read (completed (decode s.fetchWord) (s.fetched s.fetchWord)) = read (s.fetched s.fetchWord)) :
    read t = read s := by
  rcases step_cases s with ⟨-, hs⟩ | ⟨-, -, hs⟩ | ⟨-, -, hs⟩
  · cases hs.symm.trans h
    rfl
  · cases hs.symm.trans h
    exact hfault s _
  · exact (exec_keeps read (hs.symm.trans h) (hfault _) hdone).trans hfetch

theorem step_params {s t : State} (h : step s = .next t) : t.params = s.params :=
  step_keeps State.params h (fun _ _ => rfl) rfl (completed_params _ _)

/-- LOAD answers with the image stored, or not at all. -/
theorem loadImage_cases {image : List Byte} {s t : State} (h : loadImage image s = .next t) :
    (1 ≤ image.length ∧ image.length ≤ 3584) ∧ t = { s with mem := s.mem.writeBlock 0x200 image } := by
  unfold loadImage at h
  split at h
  · next hsize => exact ⟨hsize, by cases h; rfl⟩
  · cases h

theorem tick_of_none {s : State} (h : s.fault = none) :
    tick s = { s with DT := countDown s.DT, ST := countDown s.ST } := by
  simp [tick, State.faulted, h]

theorem tick_of_fault {s : State} {r : FaultRecord} (h : s.fault = some r) : tick s = s := by
  simp [tick, State.faulted, h]

theorem tick_params (s : State) : (tick s).params = s.params := by
  unfold tick
  split <;> rfl

theorem perform_params {op : Operation} {s t : State} (h : perform op s = .next t) : t.params = s.params := by
  cases op with
  | load image =>
    obtain ⟨-, rfl⟩ := loadImage_cases h
    exact congrArg (Config.Params.mk · _) (Memory.writeBlock_font ..)
  | cycle => exact step_params h
  | tick => cases h; exact tick_params s
  | reset | key k held | redrawAck => cases h; rfl

/-- Settles O16: a machine's parameters are those it is built with, no completed instruction writes them and a fault
writes the record alone; of the operations LOAD stores bytes, which leaves the font, and RESET builds from the same
parameters. -/
theorem parametersNeverChange : Obligations.ParametersNeverChange := by
  unfold Obligations.ParametersNeverChange
  exact ⟨fun _ => rfl, fun _ _ _ => exec_params, fun _ _ _ => perform_params⟩

/-! ### Registers (R23) -/

theorem reg_setFlagThenReg_ne (s : State) {x r : Reg} (f : Bool) (b : Byte) (hx : r ≠ x) (hf : r ≠ Reg.VF) :
    (s.setFlagThenReg x f b).reg r = s.reg r := by
  rw [State.setFlagThenReg, State.reg_setReg_ne _ _ hx, State.reg_setReg_ne _ _ hf]

theorem completed_reg {i : Instr} {r : Reg} (s : State) (h : mayWriteReg i r = false) :
    (completed i s).reg r = s.reg r := by
  cases i with
  | ldImm x _ | addImm x _ | rnd x _ | ldReg x _ | orReg x _ | andReg x _ | xorReg x _ | ldRegDt x =>
    exact s.reg_setReg_ne _ (ne_of_beq_false h)
  | addReg x _ | sub x _ | shr x _ | subn x _ | shl x _ =>
    obtain ⟨hx, hf⟩ := Bool.or_eq_false_iff.mp h
    exact reg_setFlagThenReg_ne s _ _ (ne_of_beq_false hx) (ne_of_beq_false hf)
  | drw x y n => exact s.reg_setReg_ne (x := Reg.VF) _ (ne_of_beq_false h)
  | ldRegKey x =>
    cases hk : s.lowestHeldKey with
    | none => simp only [completed, State.reg, hk, Option.elim_none]
    | some k =>
      simp only [completed, State.reg, hk, Option.elim_some]
      exact s.reg_setReg_ne _ (ne_of_beq_false h)
  | loadRegs x => exact (s.reg_loadBlock x r).trans (if_neg (of_decide_eq_false h))
  | _ => rfl

/-- Settles O50: a fault writes the record alone, and a completed instruction writes the registers of `mayWriteReg`,
each by the rule for the register write it makes. -/
theorem registersChangeOnlyAsTabulated : Obligations.RegistersChangeOnlyAsTabulated := by
  unfold Obligations.RegistersChangeOnlyAsTabulated
  intro i s t r h hr
  exact exec_keeps (State.reg · r) h (fun _ => rfl) (completed_reg s hr)

/-! ### Memory (20_memory.md section 3) -/

theorem Memory.read_writeBlock_of_ne (m : Memory) (base : Nat) (bs : List Byte) (a : Nat)
    (h : ∀ k < bs.length, a ≠ base + k) : (m.writeBlock base bs).read a = m.read a := by
  apply Memory.read_writeBlock_outside
  by_contra hin
  exact h (a - base) (by omega) (by omega)

theorem completed_read {i : Instr} {s : State} {a : Nat}
    (hbcd : ∀ x, i = .ldBcd x → ∀ k < 3, a ≠ effectiveAddress s.I k)
    (hstore : ∀ x : Reg, i = .storeRegs x → ∀ k ≤ x.val, a ≠ effectiveAddress s.I k) :
    (completed i s).mem.read a = s.mem.read a := by
  cases i with
  | ldBcd x => exact Memory.read_writeBlock_of_ne _ _ _ _ (hbcd x rfl)
  | storeRegs x =>
    refine Memory.read_writeBlock_of_ne _ _ _ _ fun k hk => hstore x rfl k ?_
    rw [State.regsUpTo_length] at hk
    omega
  | _ => rfl

/-- Settles O51: a fault writes the record alone, and a completed instruction that stores does so in one block at
`I`. -/
theorem memoryChangesOnlyWhereStored : Obligations.MemoryChangesOnlyWhereStored := by
  unfold Obligations.MemoryChangesOnlyWhereStored
  intro i s t a h hbcd hstore
  exact exec_keeps (·.mem.read a) h (fun _ => rfl) (completed_read hbcd hstore)

/-! ### Stack, `sp` and `I` -/

theorem completed_stack {i : Instr} (s : State) (h : ∀ nnn, i ≠ .call nnn) : (completed i s).stack = s.stack := by
  cases i with
  | call nnn => exact absurd rfl (h nnn)
  | _ => rfl

theorem completed_sp {i : Instr} (s : State) (hcall : ∀ nnn, i ≠ .call nnn) (hret : ∀ ign, i ≠ .ret ign) :
    (completed i s).sp = s.sp := by
  cases i with
  | call nnn => exact absurd rfl (hcall nnn)
  | ret ign => exact absurd rfl (hret ign)
  | _ => rfl

theorem indexAfterBlock_of_false {b : Bool} (base : Word) (x : Reg) (h : b = false) :
    indexAfterBlock b base x = base := by
  rw [h, indexAfterBlock_false]

theorem completed_I {i : Instr} {s : State} (hldI : ∀ nnn, i ≠ .ldI nnn) (haddI : ∀ x, i ≠ .addI x)
    (hldFont : ∀ x, i ≠ .ldFont x)
    (hblock : (∃ x, i = .storeRegs x ∨ i = .loadRegs x) → s.blockXferIncrementsI = false) :
    (completed i s).I = s.I := by
  cases i with
  | ldI nnn => exact absurd rfl (hldI nnn)
  | addI x => exact absurd rfl (haddI x)
  | ldFont x => exact absurd rfl (hldFont x)
  | storeRegs x => exact indexAfterBlock_of_false s.I x (hblock ⟨x, .inl rfl⟩)
  | loadRegs x => exact indexAfterBlock_of_false s.I x (hblock ⟨x, .inr rfl⟩)
  | _ => rfl

/-- Settles O55: a fault writes the record alone, and each of the four is written by the completed instructions
named only. -/
theorem stackAndIndexChangeOnlyAsTabulated : Obligations.StackAndIndexChangeOnlyAsTabulated := by
  unfold Obligations.StackAndIndexChangeOnlyAsTabulated
  intro i s t h
  exact ⟨fun hcall => exec_keeps State.stack h (fun _ => rfl) (completed_stack s hcall),
    fun hcall hret => exec_keeps State.sp h (fun _ => rfl) (completed_sp s hcall hret),
    fun hldI haddI hldFont hblock =>
      exec_keeps State.I h (fun _ => rfl) (completed_I hldI haddI hldFont hblock),
    exec_ir h⟩

/-! ### Keys and timers -/

theorem completed_key (i : Instr) (s : State) : (completed i s).key = s.key := by
  cases i <;> rfl

theorem completed_DT {i : Instr} (s : State) (h : ∀ x, i ≠ .ldDt x) : (completed i s).DT = s.DT := by
  cases i with
  | ldDt x => exact absurd rfl (h x)
  | _ => rfl

theorem completed_ST {i : Instr} (s : State) (h : ∀ x, i ≠ .ldSt x) : (completed i s).ST = s.ST := by
  cases i with
  | ldSt x => exact absurd rfl (h x)
  | _ => rfl

/-- Settles O54: neither the record nor the fetch phase writes a key or a timer, and of the completed instructions
FX15 writes DT and FX18 ST. -/
theorem cycleLeavesKeysAndTimers : Obligations.CycleLeavesKeysAndTimers := by
  unfold Obligations.CycleLeavesKeysAndTimers
  intro s t h
  exact ⟨step_keeps State.key h (fun _ _ => rfl) rfl (completed_key _ _),
    fun hdt => step_keeps State.DT h (fun _ _ => rfl) rfl (completed_DT _ hdt),
    fun hst => step_keeps State.ST h (fun _ _ => rfl) rfl (completed_ST _ hst)⟩

/-! ### The redraw flag is not read (R35) -/

theorem raises_redraw (i : Instr) (s : State) (b : Bool) : raises i { s with redraw := b } = raises i s := by
  cases i <;> rfl

theorem completed_redraw (i : Instr) (s : State) (b : Bool) :
    ∃ b', completed i { s with redraw := b } = { completed i s with redraw := b' } := by
  cases i <;> exact ⟨_, rfl⟩

theorem exec_redraw {i : Instr} {s t : State} (b : Bool) (h : exec i s = .next t) :
    ∃ b', exec i { s with redraw := b } = .next { t with redraw := b' } := by
  rcases exec_cases h with ⟨r, hr, rfl⟩ | ⟨hr, rfl⟩
  · exact ⟨b, exec_of_raises ((raises_redraw i s b).trans hr)⟩
  · obtain ⟨b', hb'⟩ := completed_redraw i s b
    exact ⟨b', hb' ▸ exec_of_raises_none ((raises_redraw i s b).trans hr)⟩

/-- Settles O53: what raises, the fetch phase and every field but `redraw` of the completed state are computed from
the other fields, so the three cases of a step are the same with any other `redraw`. -/
theorem redrawFlagIsNeverRead : Obligations.RedrawFlagIsNeverRead := by
  unfold Obligations.RedrawFlagIsNeverRead
  intro s t b h
  rcases step_cases s with ⟨hf, hs⟩ | ⟨hf, hpc, hs⟩ | ⟨hf, hpc, hs⟩
  · cases hs.symm.trans h
    exact ⟨b, cycle_of_faulted _ hf⟩
  · cases hs.symm.trans h
    exact ⟨b, cycle_of_cannotFetch { s with redraw := b } hf (by simpa [State.canFetch] using hpc)⟩
  · obtain ⟨b', hb'⟩ := exec_redraw b (hs.symm.trans h)
    exact ⟨b', (cycle_of_canFetch { s with redraw := b } hf (by simpa [State.canFetch] using hpc)).trans hb'⟩

end Sys2Proof.Machine
end

section
/-!
PROOFS. The fault record over all operations (R256), and the step as the execute phase of the word at `pc` (R120).
-/

namespace Sys2Proof.Machine

/-! ### The cycle, by its three cases -/

theorem step_of_fault {s : State} {r : FaultRecord} (h : s.fault = some r) : step s = .next s :=
  cycle_of_faulted s (by simp [State.faulted, h])

theorem step_of_pc_outside {s : State} (hfault : s.fault = none) (hpc : 0xFFE < s.pc.toNat) :
    step s = .next (s.raise .fetchOutOfBounds s.pc) :=
  cycle_of_cannotFetch s (by simp [State.faulted, hfault]) (by simpa [State.canFetch] using hpc)

/-- Settles O9: above 0xFFE the cycle raises, which writes the record alone. -/
theorem fetchOutsideMemoryFaults : Obligations.FetchOutsideMemoryFaults := by
  unfold Obligations.FetchOutsideMemoryFaults
  exact fun s hfault hpc => step_of_pc_outside hfault hpc

/-- Settles O6: two bytes with the value of a word are that word, so it is the word fetched, and it decodes to the
instruction it encodes. -/
theorem stepRunsTheDecodedInstruction : Obligations.StepRunsTheDecodedInstruction := by
  unfold Obligations.StepRunsTheDecodedInstruction
  intro s i hfault hpc hwf hbytes
  have hword : s.fetchWord = encode i := BitVec.eq_of_toNat_eq ((joinBytes_toNat _ _).trans hbytes)
  rw [step_of_fetch hfault hpc, hword, decode_encode hwf]
  rfl

/-! ### The record (R256) -/

/-- Settles O10: in the faulted state CYCLE and TICK answer the state they were given, and RESET starts anew. -/
theorem faultedMachineIsInert : Obligations.FaultedMachineIsInert := by
  unfold Obligations.FaultedMachineIsInert
  intro s r h
  exact ⟨step_of_fault h, congrArg _ (tick_of_fault h), fun _ _ => rfl, rfl, _, perform_reset s, rfl⟩

theorem tick_fault (s : State) : (tick s).fault = s.fault := by
  unfold tick
  split <;> rfl

/-- RESET and CYCLE apart, no operation writes the record. -/
theorem perform_fault {op : Operation} {s t : State} (hreset : op ≠ .reset) (hcycle : op ≠ .cycle)
    (h : perform op s = .next t) : t.fault = s.fault := by
  cases op with
  | reset => exact absurd rfl hreset
  | cycle => exact absurd rfl hcycle
  | load image =>
    obtain ⟨-, rfl⟩ := loadImage_cases h
    rfl
  | tick => cases h; exact tick_fault s
  | key k held | redrawAck => cases h; rfl

/-- Settles O11: a faulted machine's cycle changes nothing, RESET leaves no record, and the other operations keep the
record. -/
theorem onlyResetClearsAndOnlyCycleRaises : Obligations.OnlyResetClearsAndOnlyCycleRaises := by
  unfold Obligations.OnlyResetClearsAndOnlyCycleRaises
  refine fun op s t h => ⟨fun r hr hreset => ?survives, fun hnone hcycle => ?raisesNone⟩
  case survives =>
    by_cases hcycle : op = .cycle
    · subst hcycle
      cases (step_of_fault hr).symm.trans h
      exact hr
    · exact (perform_fault hreset hcycle h).trans hr
  case raisesNone =>
    by_cases hreset : op = .reset
    · subst hreset
      cases h
      rfl
    · exact (perform_fault hreset hcycle h).trans hnone

end Sys2Proof.Machine
end

section
/-!
PROOFS. The invariant (R27, R65, R250, R285): memory keeps its canonical form, and `pc`, the stack entries and the
record their ranges, under every execute phase, every step and every operation, hence along every run.
-/

namespace Sys2Proof.Machine

/-! ### Memory -/

theorem completed_mem_wf {i : Instr} {s : State} (h : s.mem.wf = true) (hr : raises i s = none) :
    (completed i s).mem.wf = true := by
  cases i with
  | ldBcd x =>
    have hin := transferFault_eq_none.mp hr
    exact Memory.writeBlock_wf _ _ _ h (by simp [Config.memSize]; omega)
  | storeRegs x =>
    have hin := transferFault_eq_none.mp hr
    exact Memory.writeBlock_wf _ _ _ h (by simp [Config.memSize]; omega)
  | _ => exact h

theorem exec_mem_wf {i : Instr} {s t : State} (h : s.mem.wf = true) (hexec : exec i s = .next t) :
    t.mem.wf = true := by
  rcases exec_cases hexec with ⟨r, -, rfl⟩ | ⟨hr, rfl⟩
  · exact h
  · exact completed_mem_wf h hr

theorem step_mem_wf {s t : State} (h : s.mem.wf = true) (hstep : step s = .next t) : t.mem.wf = true := by
  rcases step_cases s with ⟨-, hs⟩ | ⟨-, -, hs⟩ | ⟨-, -, hs⟩
  · cases hs.symm.trans hstep
    exact h
  · cases hs.symm.trans hstep
    exact h
  · exact exec_mem_wf (s := s.fetched s.fetchWord) h (hs.symm.trans hstep)

theorem tick_mem (s : State) : (tick s).mem = s.mem := by
  unfold tick
  split <;> rfl

theorem perform_mem_wf {op : Operation} {s t : State} (h : s.mem.wf = true) (hop : perform op s = .next t) :
    t.mem.wf = true := by
  cases op with
  | reset => cases hop; exact Memory.resetWith_wf s.params
  | load image =>
    obtain ⟨⟨-, hmax⟩, rfl⟩ := loadImage_cases hop
    exact Memory.writeBlock_wf _ _ _ h (by simp [Config.memSize]; omega)
  | cycle => exact step_mem_wf h hop
  | tick => cases hop; rwa [tick_mem]
  | key k held | redrawAck => cases hop; exact h

/-- Settles O56: memory changes only by blocks that lie inside it, a store's because it raised nothing and an
image's by its admitted size, and such a block keeps the canonical form; RESET's memory lists nothing. -/
theorem memoryStaysCanonical : Obligations.MemoryStaysCanonical := by
  unfold Obligations.MemoryStaysCanonical
  exact ⟨fun _ _ => step_mem_wf, fun _ _ _ => perform_mem_wf⟩

/-! ### `pc`, stack and record -/

/-- The ranges speak of three fields only. -/
theorem State.InRange.congr {s t : State} (h : s.InRange) (hpc : t.pc = s.pc) (hstack : t.stack = s.stack)
    (hfault : t.fault = s.fault) : t.InRange :=
  ⟨hpc ▸ h.pc_le, hstack ▸ h.stack_le, hfault ▸ h.fault_wf⟩

theorem raises_wf {i : Instr} {s : State} {r : FaultRecord} (h : raises i s = some r) : r.wf = true := by
  obtain rfl | rfl | rfl | ⟨v, hv, rfl⟩ := raises_cases h
  · rfl
  · rfl
  · simp [FaultRecord.wf, lowestOffending_toNat]
  · have : v.toNat < 256 := v.isLt
    simp [FaultRecord.wf]
    omega

/-- A skip goes at most two further. -/
theorem skip_pc_le {pc : Word} (p : Prop) [Decidable p] (h : pc.toNat ≤ 0x1000) :
    (if p then pc + 2 else pc).toNat ≤ 0x10FE := by
  split <;> bv_omega

/-- Right after a fetch: the ranges hold, and `pc` is where a fetch leaves it. -/
structure State.FetchedInRange (s : State) : Prop extends s.InRange where
  le_pc : 2 ≤ s.pc.toNat
  pc_le_end : s.pc.toNat ≤ 0x1000

theorem completed_pc_le {i : Instr} {s : State} (h : s.FetchedInRange) : (completed i s).pc.toNat ≤ 0x10FE := by
  obtain ⟨⟨hpc, hstack, hfault⟩, hlo, hhi⟩ := h
  cases i with
  | ret ign =>
    have := hstack ⟨s.sp.val - 1, by omega⟩
    exact this.trans (by omega)
  | jp nnn | call nnn =>
    exact (immediateAddress_toNat nnn).trans_le (by omega)
  | jpV0 nnn =>
    have := widen_add_immediateAddress_toNat (s.reg 0) nnn
    exact this.trans_le (by omega)
  | seImm x nn | sneImm x nn | seReg x y ign | sneReg x y ign | skp x | sknp x => exact skip_pc_le _ hhi
  | ldRegKey x =>
    cases hk : s.lowestHeldKey <;> simp only [completed, hk, Option.elim_none, Option.elim_some]
    · bv_omega
    · exact hpc
  | _ => exact hpc

theorem completed_stack_le {i : Instr} {s : State} (h : s.FetchedInRange) (k : Fin 16) :
    (completed i s).stack[k].toNat ≤ 0x1000 := by
  obtain ⟨⟨hpc, hstack, hfault⟩, hlo, hhi⟩ := h
  by_cases hcall : ∃ nnn, i = .call nnn
  · obtain ⟨nnn, rfl⟩ := hcall
    simp only [completed, Fin.getElem_fin, Vector.getElem_setIfInBounds]
    split
    · exact hhi
    · exact hstack k
  · rw [completed_stack s (by simpa using hcall)]
    exact hstack k

theorem exec_inRange {i : Instr} {s t : State} (h : s.FetchedInRange) (hexec : exec i s = .next t) : t.InRange := by
  rcases exec_cases hexec with ⟨r, hr, rfl⟩ | ⟨-, rfl⟩
  · exact ⟨h.pc_le, h.stack_le, fun _ hrec => Option.some.inj hrec ▸ raises_wf hr⟩
  · exact ⟨completed_pc_le h, completed_stack_le h, completed_fault i s ▸ h.fault_wf⟩

theorem fetched_inRange {s : State} (h : s.InRange) (hpc : s.pc.toNat ≤ 0xFFE) (w : Word) :
    (s.fetched w).FetchedInRange := by
  have hadd : (s.fetched w).pc.toNat = s.pc.toNat + 2 := by simp; bv_omega
  exact ⟨⟨by omega, h.stack_le, h.fault_wf⟩, by omega, by omega⟩

theorem step_inRange {s t : State} (h : s.InRange) (hstep : step s = .next t) : t.InRange := by
  rcases step_cases s with ⟨-, hs⟩ | ⟨-, hpc, hs⟩ | ⟨-, hpc, hs⟩
  · cases hs.symm.trans hstep
    exact h
  · cases hs.symm.trans hstep
    refine ⟨h.pc_le, h.stack_le, ?_⟩
    rintro r ⟨⟩
    exact decide_eq_true ⟨hpc, h.pc_le⟩
  · exact exec_inRange (fetched_inRange h hpc _) (hs.symm.trans hstep)

theorem resetWith_inRange (p : Config.Params) : (State.resetWith p).InRange :=
  ⟨show Config.resetPc.toNat ≤ 0x10FE by decide, fun k => by rw [State.resetWith_stack_getElem]; decide, by rintro r ⟨⟩⟩

theorem tick_inRange {s : State} (h : s.InRange) : (tick s).InRange := by
  unfold tick
  split
  · exact h
  · exact h.congr rfl rfl rfl

theorem perform_inRange {op : Operation} {s t : State} (h : s.InRange) (hop : perform op s = .next t) :
    t.InRange := by
  cases op with
  | reset =>
    cases hop
    exact (resetWith_inRange s.params).congr rfl rfl rfl
  | load image =>
    obtain ⟨-, rfl⟩ := loadImage_cases hop
    exact h.congr rfl rfl rfl
  | cycle => exact step_inRange h hop
  | tick => cases hop; exact tick_inRange h
  | key k held | redrawAck => cases hop; exact h.congr rfl rfl rfl

/-- Settles O57: a fetch leaves `pc` at 2 to 0x1000 (`fetched_inRange`), from there no instruction takes it past
0x10FE, a call pushes at most 0x1000, and every record made is one that R250 admits (`exec_inRange`). -/
theorem programCounterAndStackStayInRange : Obligations.ProgramCounterAndStackStayInRange := by
  unfold Obligations.ProgramCounterAndStackStayInRange
  exact ⟨fun _ _ => step_inRange, fun _ _ _ => perform_inRange⟩

/-! ### Runs -/

theorem resetWith_inv (p : Config.Params) : (State.resetWith p).Inv :=
  ⟨Memory.resetWith_wf p, resetWith_inRange p⟩

theorem perform_inv {op : Operation} {s t : State} (h : s.Inv) (hop : perform op s = .next t) : t.Inv :=
  ⟨perform_mem_wf h.mem_wf hop, perform_inRange h.inRange hop⟩

/-- Settles O58: nothing is listed in memory, `pc` is 0x200, every stack entry 0, and there is no record. -/
theorem resetMeetsTheInvariant : Obligations.ResetMeetsTheInvariant := by
  unfold Obligations.ResetMeetsTheInvariant
  exact ⟨resetWith_inv Config.defaults, resetWith_inv⟩

/-- Settles O59, by induction on the run: the invariant holds of a machine just created, and every operation keeps
it. -/
theorem everyReachableStateMeetsTheInvariant : Obligations.EveryReachableStateMeetsTheInvariant := by
  unfold Obligations.EveryReachableStateMeetsTheInvariant
  intro ph s hreach
  induction hreach with
  | created p n => exact ⟨Memory.resetWith_wf p, (resetWith_inRange p).congr rfl rfl rfl⟩
  | operation op _ _ hop ih => exact perform_inv ih hop

end Sys2Proof.Machine
end

section
/-!
PROOFS. The host's operations TICK, KEY, REDRAW_ACK and LOAD (R231 to R234), each with its frame, and the run of a
machine that nothing was loaded into (R282).
-/

namespace Sys2Proof.Machine

/-! ### TICK, KEY, REDRAW_ACK -/

theorem countDown_toNat (t : Byte) : (countDown t).toNat = t.toNat - 1 := by
  unfold countDown
  split
  case isTrue h => rw [h]; rfl
  case isFalse h => bv_omega

/-- Settles O17: without a record TICK counts both timers down (`tick_of_none`), and counting down is the truncated
predecessor. -/
theorem tickCountsBothTimersDownToZero : Obligations.TickCountsBothTimersDownToZero := by
  unfold Obligations.TickCountsBothTimersDownToZero
  intro s hfault
  exact ⟨_, congrArg Host.Outcome.next (tick_of_none hfault), countDown_toNat s.DT, countDown_toNat s.ST, rfl⟩

theorem setKey_same (k : Key) (held : Bool) (s : State) : (setKey k held s).key[k] = held :=
  Vector.getElem_set_self k.isLt

theorem setKey_ne {j k : Key} (held : Bool) (s : State) (h : j ≠ k) : (setKey k held s).key[j] = s.key[j] :=
  Vector.getElem_set_ne k.isLt j.isLt fun e => h (Fin.ext e.symm)

/-- Settles O18: KEY sets one entry of the latch, REDRAW_ACK one field. -/
theorem keyAndRedrawAckWriteTheirFlag : Obligations.KeyAndRedrawAckWriteTheirFlag := by
  unfold Obligations.KeyAndRedrawAckWriteTheirFlag
  exact fun s => ⟨fun k held => ⟨_, rfl, setKey_same k held s, fun _ => setKey_ne held s, rfl⟩, rfl⟩

/-! ### LOAD -/

theorem perform_load_of_not_admitted {image : List Byte} (s : State)
    (h : image.length = 0 ∨ 3584 < image.length) :
    perform (.load image) s = .refused .imageSizeNotAdmitted :=
  if_neg (by rw [Config.progMax]; omega)

/-- Settles O19: an admitted image is stored as one block at 0x200; any other is refused. -/
theorem loadWritesTheImageAndNothingElse : Obligations.LoadWritesTheImageAndNothingElse := by
  unfold Obligations.LoadWritesTheImageAndNothingElse
  refine fun image s => ⟨fun hpos hmax => ?_, perform_load_of_not_admitted s⟩
  exact ⟨_, perform_load_of_admitted s hpos hmax, Memory.read_writeBlock_inside image s.mem 0x200,
    fun a => Memory.read_writeBlock_outside image s.mem 0x200 a, rfl⟩

/-! ### A run without LOAD (R282) -/

/-- The machine after `k` cycles without LOAD: `pc` has advanced by two each time. -/
def unloadedAfter (p : Config.Params) (k : Nat) : State :=
  { State.resetWith p with pc := BitVec.ofNat 16 (0x200 + 2 * k) }

theorem unloadedAfter_pc_toNat (p : Config.Params) {k : Nat} (h : k ≤ 1792) :
    (unloadedAfter p k).pc.toNat = 0x200 + 2 * k :=
  Nat.mod_eq_of_lt (by omega)

/-- From 0x200 on memory reads 0, so the word fetched is 0x0000. -/
theorem unloadedAfter_fetchWord (p : Config.Params) {k : Nat} (h : k ≤ 1792) :
    (unloadedAfter p k).fetchWord = 0 := by
  have hread : ∀ a, 0x50 ≤ a → (unloadedAfter p k).mem.read a = 0 := State.read_resetWith_zero p
  rw [State.fetchWord, unloadedAfter_pc_toNat p h, hread _ (by omega), hread _ (by omega)]
  rfl

theorem unloadedAfter_pc_succ (p : Config.Params) (k : Nat) :
    (unloadedAfter p k).pc + 2 = (unloadedAfter p (k + 1)).pc := by
  simp only [unloadedAfter]
  bv_omega

/-- The word 0x0000 is a no-op. -/
theorem step_unloadedAfter (p : Config.Params) {k : Nat} (h : k < 1792) :
    step (unloadedAfter p k) = .next (unloadedAfter p (k + 1)) := by
  have hpc := unloadedAfter_pc_toNat p h.le
  rw [step_of_fetch rfl (by omega), unloadedAfter_fetchWord p h.le, exec_noOp _ (by decide), State.fetched,
    unloadedAfter_pc_succ]
  rfl

theorem run_unloaded (p : Config.Params) {k : Nat} (h : k ≤ 1792) :
    Sys2Proof.core.run k (State.resetWith p) = .next (unloadedAfter p k) := by
  induction k with
  | zero => rfl
  | succ k ih => exact (core_run_succ_of_run k (ih (by omega))).trans (step_unloadedAfter p (by omega))

/-- Settles O20: each of the first 1792 cycles runs the no-op 0x0000 (`run_unloaded`), which brings `pc` to 0x1000,
where the next one cannot fetch. -/
theorem resetWithoutLoadFaultsAtCycle1793 : Obligations.ResetWithoutLoadFaultsAtCycle1793 := by
  unfold Obligations.ResetWithoutLoadFaultsAtCycle1793
  intro p
  have hrun := run_unloaded p (le_refl 1792)
  have hpc : 0xFFE < (unloadedAfter p 1792).pc.toNat := by
    rw [unloadedAfter_pc_toNat p (le_refl _)]
    omega
  exact ⟨hrun, (core_run_succ_of_run 1792 hrun).trans (step_of_pc_outside rfl hpc)⟩

end Sys2Proof.Machine
end

section
/-!
PROOFS. Clear display, call, return and the skips on two registers (41_control_flow.md).
-/

namespace Sys2Proof

/-- The leading nibble of a row of the system family sends the word on to the family's secondary table (R94). -/
theorem decode_of_system_row {w m : Word} (h : w &&& 0xF0FF = m) (hop : opField m = 0x0) :
    decode w = decodeSystem w := by
  rw [decode, opField_of_byte_row h, hop]
  rfl

theorem decode_cls {w : Word} (h : w &&& 0xF0FF = 0x00E0) : decode w = .cls (ignHighField w) := by
  rw [decode_of_system_row h rfl, decodeSystem, nnField_of_byte_row h]
  rfl

theorem decode_ret {w : Word} (h : w &&& 0xF0FF = 0x00EE) : decode w = .ret (ignHighField w) := by
  rw [decode_of_system_row h rfl, decodeSystem, nnField_of_byte_row h]
  rfl

theorem decode_call {w : Word} (h : w &&& 0xF000 = 0x2000) : decode w = .call (nnnField w) := by
  rw [decode, opField_of_row h]
  rfl

end Sys2Proof

namespace Sys2Proof.Machine

theorem exec_cls (ign : Nibble) (s : State) :
    exec (.cls ign) s = .next { s with px := clearFrame, redraw := true } := rfl

/-- Settles O21: the row decodes by its leading nibble and low byte, and the execute phase puts in the clear frame. -/
theorem clearDisplayClearsEveryCell : Obligations.ClearDisplayClearsEveryCell := by
  unfold Obligations.ClearDisplayClearsEveryCell
  exact ⟨fun _ => decode_cls, fun ign s => ⟨_, exec_cls ign s, Frame.pixel_clear, rfl, rfl⟩⟩

/-! ### The stack -/

theorem exec_ret_of_succ {s : State} {k : Fin 16} (ign : Nibble) (h : s.sp = k.succ) :
    exec (.ret ign) s = .next { s with sp := k.castSucc, pc := s.stack[k] } := by
  have hr : raises (.ret ign) s = none := if_neg (by simp [h])
  rw [exec_of_raises_none hr]
  simp [completed, h]
  rfl

theorem exec_ret_of_empty {s : State} (ign : Nibble) (h : s.sp = 0) :
    exec (.ret ign) s = .next { s with fault := some ⟨.stackUnderflow, 0⟩ } :=
  exec_of_raises (if_pos (congrArg Fin.val h))

theorem exec_call_of_castSucc {s : State} {k : Fin 16} (nnn : Addr12) (h : s.sp = k.castSucc) :
    exec (.call nnn) s =
      .next { s with stack := s.stack.set k s.pc, sp := k.succ, pc := BitVec.ofNat 16 nnn.toNat } := by
  simp only [exec, execCall, State.push_of_lt s s.pc (by simp [h]), State.jumpTo, immediateAddress_eq_ofNat]
  simp [h]
  rfl

theorem exec_call_of_full {s : State} (nnn : Addr12) (h : s.sp = 16) :
    exec (.call nnn) s = .next { s with fault := some ⟨.stackOverflow, 16⟩ } :=
  exec_of_raises (if_pos (congrArg Fin.val h))

/-- Settles O22: the row decodes by its leading nibble and low byte; the return pops when an entry is in use and
raises when none is. -/
theorem returnPopsTheStack : Obligations.ReturnPopsTheStack := by
  unfold Obligations.ReturnPopsTheStack
  exact ⟨fun _ => decode_ret, fun ign s => ⟨fun _ => exec_ret_of_succ ign, exec_ret_of_empty ign⟩⟩

/-- Settles O24: the row decodes by its leading nibble; the call pushes when fewer than sixteen entries are in use and
raises when all are. -/
theorem callPushesAndJumps : Obligations.CallPushesAndJumps := by
  unfold Obligations.CallPushesAndJumps
  exact ⟨fun _ => decode_call, fun nnn s => ⟨fun _ => exec_call_of_castSucc nnn, exec_call_of_full nnn⟩⟩

/-- Settles O25: the call puts `pc` into the entry that the return, finding the same stack and `sp`, pops. -/
theorem returnComesBackToTheCall : Obligations.ReturnComesBackToTheCall := by
  unfold Obligations.ReturnComesBackToTheCall
  intro nnn ign s t u hlt hcall hstack hsp
  have hk : s.sp = (⟨s.sp.val, hlt⟩ : Fin 16).castSucc := rfl
  cases (exec_call_of_castSucc nnn hk).symm.trans hcall
  refine ⟨_, exec_ret_of_succ (k := ⟨s.sp.val, hlt⟩) ign hsp, ?_, rfl⟩
  simp [hstack]

/-! ### Skips on two registers -/

theorem exec_seReg (x y : Reg) (ign : Nibble) (s : State) :
    exec (.seReg x y ign) s = .next (s.skipIf (s.reg x == s.reg y)) := rfl

theorem exec_sneReg (x y : Reg) (ign : Nibble) (s : State) :
    exec (.sneReg x y ign) s = .next (s.skipIf (s.reg x != s.reg y)) := rfl

/-- Settles O27: both skips are `skipIf` of the comparison, and the low nibble is not read. -/
theorem skipsOnRegisters : Obligations.SkipsOnRegisters := by
  unfold Obligations.SkipsOnRegisters
  intro x y ign s
  rw [exec_seReg, exec_sneReg, s.skipIf_of_iff beq_iff_eq, s.skipIf_of_iff bne_iff_ne]
  exact ⟨rfl, rfl⟩

end Sys2Proof.Machine
end

section
/-!
PROOFS. Immediate addition and index load (R161, R162), and the arithmetic of family 8XYn with its flags (R175 to
R180), in the numbers of the rules.
-/

namespace Sys2Proof.Machine

/-! ### Results of byte arithmetic as numbers -/

theorem add_eq_ofNat (a b : Byte) : a + b = BitVec.ofNat 8 ((a.toNat + b.toNat) % 256) := by
  bv_omega

theorem sub_eq_ofInt (a b : Byte) : a - b = BitVec.ofInt 8 (((a.toNat : Int) - b.toNat) % 256) := by
  apply BitVec.eq_of_toNat_eq
  rw [BitVec.toNat_sub, BitVec.toNat_ofInt]
  omega

theorem shiftRight_one_eq_ofNat (a : Byte) : a >>> 1 = BitVec.ofNat 8 (a.toNat / 2) := by
  bv_omega

theorem shiftLeft_one_eq_ofNat (a : Byte) : a <<< 1 = BitVec.ofNat 8 (a.toNat * 2 % 256) := by
  bv_omega

/-! ### The execute phases -/

theorem exec_addImm (x : Reg) (nn : Byte) (s : State) :
    exec (.addImm x nn) s = .next (s.setReg x (s.reg x + nn)) := rfl

theorem exec_ldI (nnn : Addr12) (s : State) :
    exec (.ldI nnn) s = .next { s with I := immediateAddress nnn } := rfl

theorem exec_addReg (x y : Reg) (s : State) : exec (.addReg x y) s =
    .next (s.setFlagThenReg x (carryFlag (s.reg x) (s.reg y)) (s.reg x + s.reg y)) := rfl

theorem exec_sub (x y : Reg) (s : State) : exec (.sub x y) s =
    .next (s.setFlagThenReg x (noBorrowFlag (s.reg x) (s.reg y)) (s.reg x - s.reg y)) := rfl

theorem exec_subn (x y : Reg) (s : State) : exec (.subn x y) s =
    .next (s.setFlagThenReg x (noBorrowFlag (s.reg y) (s.reg x)) (s.reg y - s.reg x)) := rfl

theorem exec_shr (x y : Reg) (s : State) : exec (.shr x y) s =
    .next (s.setFlagThenReg x (shiftRightFlag (s.reg x)) (s.reg x >>> 1)) := rfl

theorem exec_shl (x y : Reg) (s : State) : exec (.shl x y) s =
    .next (s.setFlagThenReg x (shiftLeftFlag (s.reg x)) (s.reg x <<< 1)) := rfl

theorem exec_rnd (x : Reg) (nn : Byte) (s : State) : exec (.rnd x nn) s =
    .next { s.setReg x (Config.draw s.drawCount &&& nn) with drawCount := s.drawCount + 1 } := rfl

/-- The two register writes of 8XY4 to 8XYE as one update of the register file. -/
theorem State.setFlagThenReg_eq (s : State) (x : Reg) (f : Bool) (b : Byte) :
    s.setFlagThenReg x f b = { s with V := (s.V.set 15 (flagByte f)).set x b } := rfl

/-- Settles O30: byte addition is addition modulo 256, written to the one register without a flag; the immediate
goes to `I` zero-extended. -/
theorem addImmediateAndLoadIndex : Obligations.AddImmediateAndLoadIndex := by
  unfold Obligations.AddImmediateAndLoadIndex
  refine fun s => ⟨fun x nn => ?_, fun nnn => ?_⟩
  · rw [exec_addImm, add_eq_ofNat]
    rfl
  · rw [exec_ldI, immediateAddress_eq_ofNat]

/-- Settles O32: the three are the two register writes `setFlagThenReg`, of the flag and the result in the numbers
of the rules. -/
theorem addAndSubtractSetFlagThenResult : Obligations.AddAndSubtractSetFlagThenResult := by
  unfold Obligations.AddAndSubtractSetFlagThenResult
  refine fun x y s => ⟨?_, ?_, ?_⟩
  · rw [exec_addReg, State.setFlagThenReg_eq, flagByte_carryFlag, add_eq_ofNat]
    rfl
  · rw [exec_sub, State.setFlagThenReg_eq, flagByte_noBorrowFlag, sub_eq_ofInt]
    rfl
  · rw [exec_subn, State.setFlagThenReg_eq, flagByte_noBorrowFlag, sub_eq_ofInt]
    rfl

/-- Settles O33: both are the two register writes `setFlagThenReg` of the bit shifted out and the shifted byte;
`V[Y]` does not occur. -/
theorem shiftsUseOnlyTheirDestination : Obligations.ShiftsUseOnlyTheirDestination := by
  unfold Obligations.ShiftsUseOnlyTheirDestination
  refine fun x y s => ⟨?_, ?_⟩
  · rw [exec_shr, State.setFlagThenReg_eq, flagByte_shiftRightFlag, shiftRight_one_eq_ofNat]
    rfl
  · rw [exec_shl, State.setFlagThenReg_eq, flagByte_shiftLeftFlag, shiftLeft_one_eq_ofNat]
    rfl

/-! ### VF as operand or destination -/

theorem sub_toNat (a b : Byte) : (a - b).toNat = (a.toNat + 256 - b.toNat) % 256 := by
  bv_omega

theorem flagByte_toNat (b : Bool) : (flagByte b).toNat = if b then 1 else 0 := by
  cases b <;> rfl

theorem flagByte_carryFlag_toNat (a b : Byte) :
    (flagByte (carryFlag a b)).toNat = if a.toNat + b.toNat > 255 then 1 else 0 := by
  simp only [flagByte_toNat, carryFlag, decide_eq_true_eq]

theorem flagByte_noBorrowFlag_toNat (a b : Byte) :
    (flagByte (noBorrowFlag a b)).toNat = if a.toNat ≥ b.toNat then 1 else 0 := by
  simp only [flagByte_toNat, noBorrowFlag, decide_eq_true_eq]

/-- With VF as destination the result overwrites the flag (R22), and every other register is kept. -/
theorem reg_flagThenVF (s : State) {r : Reg} {f : Bool} {b : Byte} {result : Nat} (hr : r ≠ 15)
    (hb : b.toNat = result) :
    (s.setFlagThenReg 15 f b).V[(15 : Reg)].toNat = result ∧ (s.setFlagThenReg 15 f b).V[r] = s.V[r] := by
  have hresult : (s.setFlagThenReg 15 f b).reg 15 = b := State.reg_setReg_same _ _ b
  exact ⟨(congrArg BitVec.toNat hresult).trans hb, reg_setFlagThenReg_ne s f b hr hr⟩

/-- With another destination VF is left at the flag. -/
theorem reg_flagThenReg (s : State) {r : Reg} {f : Bool} {b : Byte} {flag result : Nat} (hr : r ≠ 15)
    (hf : (flagByte f).toNat = flag) (hb : b.toNat = result) :
    (s.setFlagThenReg r f b).V[(15 : Reg)].toNat = flag ∧ (s.setFlagThenReg r f b).V[r].toNat = result := by
  have hflag : (s.setFlagThenReg r f b).reg Reg.VF = flagByte f :=
    (State.reg_setReg_ne _ b hr.symm).trans (State.reg_setReg_same _ _ _)
  have hresult : (s.setFlagThenReg r f b).reg r = b := State.reg_setReg_same _ _ b
  exact ⟨(congrArg BitVec.toNat hflag).trans hf, (congrArg BitVec.toNat hresult).trans hb⟩

/-- Settles O34: where the flag and the result are left is `reg_flagThenVF` or `reg_flagThenReg`, and both are
computed from the registers before the instruction. -/
theorem flagRegisterAsOperandOrDestination : Obligations.FlagRegisterAsOperandOrDestination := by
  unfold Obligations.FlagRegisterAsOperandOrDestination
  intro r s hr
  refine ⟨⟨_, exec_addReg 15 r s, ?_⟩, ⟨_, exec_addReg r 15 s, ?_⟩, ⟨_, exec_sub r 15 s, ?_⟩,
    ⟨_, exec_subn r 15 s, ?_⟩, ⟨_, exec_sub 15 15 s, ?_⟩, ⟨_, exec_subn 15 15 s, ?_⟩⟩
  · exact reg_flagThenVF s hr (BitVec.toNat_add _ _)
  · exact reg_flagThenReg s hr (flagByte_carryFlag_toNat _ _) (BitVec.toNat_add _ _)
  · exact reg_flagThenReg s hr (flagByte_noBorrowFlag_toNat _ _) (sub_toNat _ _)
  · exact reg_flagThenReg s hr (flagByte_noBorrowFlag_toNat _ _) (sub_toNat _ _)
  · exact (State.reg_setReg_same _ _ _).trans (BitVec.sub_self _)
  · exact (State.reg_setReg_same _ _ _).trans (BitVec.sub_self _)

/-- Settles O35: the register is left at the byte drawn under the mask, whatever that byte is, and a masked byte has
no bit outside its mask. -/
theorem randomByteIsMasked : Obligations.RandomByteIsMasked := by
  unfold Obligations.RandomByteIsMasked
  intro x nn s
  have hreg : (s.setReg x (Config.draw s.drawCount &&& nn)).V[x] = Config.draw s.drawCount &&& nn :=
    State.reg_setReg_same s x _
  refine ⟨_, exec_rnd x nn s, hreg, ?_, ?_⟩
  · rw [hreg, BitVec.and_assoc]
    simp
  · rw [hreg]
    rfl

end Sys2Proof.Machine
end

section
/-!
PROOFS. DXYN in the order-free form of R191: a cell is inverted iff a lit sprite bit lies on it, and VF tells
whether one of those cells was lit; drawing twice is then drawing nothing.
-/

namespace Sys2Proof.Machine

/-! ### Frames by cell index (R34) -/

/-- The cell that the bit at `row` and `col` of a sprite with origin `vx`, `vy` lands on (R190). -/
def spriteCell (vx vy : Byte) (row col : Nat) : Fin 2048 :=
  ⟨(wrapRow vy row).val * 64 + (wrapColumn vx col).val, by omega⟩

theorem Frame.pixel_spriteCell (p : Frame) (vx vy : Byte) (row col : Nat) :
    p.pixel (spriteCell vx vy row col) = p.cell (wrapColumn vx col) (wrapRow vy row) :=
  p.pixel_index _ _

theorem Frame.ext_pixel {p q : Frame} (h : ∀ i, p.pixel i = q.pixel i) : p = q :=
  Frame.ext_cell p q fun cx cy => by rw [← Frame.pixel_index, h, Frame.pixel_index]

/-- A cell is the one a sprite bit lands on iff its column and its row are. -/
theorem eq_spriteCell_iff (i : Fin 2048) (vx vy : Byte) (row col : Nat) :
    i = spriteCell vx vy row col ↔
      (⟨i.val % 64, Nat.mod_lt _ (by decide)⟩ : Fin 64) = wrapColumn vx col ∧
      (⟨i.val / 64, by omega⟩ : Fin 32) = wrapRow vy row := by
  simp only [Fin.ext_iff, spriteCell]
  omega

/-! ### What DXYN draws -/

/-- The sprite DXYN reads: `n` bytes from `I` on. -/
def State.sprite (s : State) (n : Nibble) : List Byte := s.mem.readBlock s.I.toNat n.toNat

/-- The frame DXYN leaves, and whether it has seen a collision. -/
def State.drawn (s : State) (x y : Reg) (n : Nibble) : Frame × Bool :=
  drawSprite (s.reg x) (s.reg y) (s.sprite n) s.px

theorem State.sprite_getD (s : State) (n : Nibble) {row : Nat} (h : row < n.toNat) :
    (s.sprite n).getD row 0 = s.mem.read (s.I.toNat + row) := by
  rw [List.getD_eq_getElem?_getD, State.sprite, Memory.readBlock_getElem?, if_pos h]
  rfl

theorem State.sprite_length (s : State) (n : Nibble) : (s.sprite n).length = n.toNat :=
  Memory.readBlock_length ..

/-- The set S of R191, by the bits of the sprite. -/
theorem State.spriteLights_iff (s : State) (x y : Reg) (n : Nibble) (i : Fin 2048) :
    s.spriteLights x y n i.val ↔ ∃ row < (s.sprite n).length, ∃ col < 8,
      ((s.sprite n).getD row 0).getLsbD (7 - col) = true ∧ i = spriteCell (s.reg x) (s.reg y) row col := by
  unfold State.spriteLights
  rw [State.sprite_length]
  refine exists_congr fun row => and_congr_right fun hrow => exists_congr fun col => and_congr_right fun _ => ?_
  rw [s.sprite_getD n hrow, Fin.ext_iff]
  rfl

/-- A cell under a lit bit is inverted, any other is kept. -/
theorem State.drawn_pixel (s : State) (x y : Reg) (n : Nibble) (i : Fin 2048) :
    (s.spriteLights x y n i.val → (s.drawn x y n).1.pixel i = !s.px.pixel i) ∧
    (¬s.spriteLights x y n i.val → (s.drawn x y n).1.pixel i = s.px.pixel i) := by
  have hrows : 0 + (s.sprite n).length ≤ 32 := by
    rw [State.sprite_length]
    omega
  have h := plotRows_cell (s.reg x) (s.reg y) ⟨i.val % 64, Nat.mod_lt _ (by decide)⟩ ⟨i.val / 64, by omega⟩
    (s.sprite n) 0 (s.px, false) hrows
  simp only [Nat.zero_add, ← eq_spriteCell_iff, ← State.spriteLights_iff] at h
  exact h

/-- A collision is seen iff some cell under a lit bit was lit. -/
theorem State.drawn_hit (s : State) (x y : Reg) (n : Nibble) :
    (s.drawn x y n).2 = true ↔ ∃ i : Fin 2048, s.spriteLights x y n i.val ∧ s.px.pixel i = true := by
  have hrows : 0 + (s.sprite n).length ≤ 32 := by
    rw [State.sprite_length]
    omega
  rw [State.drawn, drawSprite, plotRows_hit _ _ _ _ _ hrows]
  simp only [Nat.zero_add, Bool.false_eq_true, false_or, ← Frame.pixel_spriteCell, State.spriteLights_iff]
  constructor
  · rintro ⟨row, hrow, col, hcol, hbit, hlit⟩
    exact ⟨_, ⟨row, hrow, col, hcol, hbit, rfl⟩, hlit⟩
  · rintro ⟨_, ⟨row, hrow, col, hcol, hbit, rfl⟩, hlit⟩
    exact ⟨row, hrow, col, hcol, hbit, hlit⟩

/-! ### The instruction -/

/-- The state DXYN leaves when its sprite lies inside memory. -/
def State.afterDraw (s : State) (x y : Reg) (n : Nibble) : State :=
  { s with V := s.V.set 15 (flagByte (s.drawn x y n).2), px := (s.drawn x y n).1, redraw := true }

theorem exec_drw_inside {s : State} {n : Nibble} (x y : Reg) (h : n = 0 ∨ s.I.toNat + n.toNat - 1 ≤ 0xFFF) :
    exec (.drw x y n) s = .next (s.afterDraw x y n) := by
  have hr : raises (.drw x y n) s = none := by
    refine transferFault_eq_none.mpr ?_
    rcases h with rfl | h
    · exact .inl rfl
    · omega
  exact exec_of_raises_none hr

/-- Settles O36: inside memory DXYN leaves the frame drawn and the flag of the collision (`exec_drw_inside`), which
are what R191 says of them (`drawn_pixel`, `drawn_hit`). -/
theorem drawInvertsTheCellsUnderLitBits : Obligations.DrawInvertsTheCellsUnderLitBits := by
  unfold Obligations.DrawInvertsTheCellsUnderLitBits
  intro x y n s hin
  refine ⟨_, exec_drw_inside x y hin, rfl, fun i => (s.drawn_pixel x y n i).1, fun i => (s.drawn_pixel x y n i).2,
    fun hlit => ?lit, fun hdark => ?dark, rfl⟩
  case lit =>
    rw [State.afterDraw, (s.drawn_hit x y n).mpr hlit]
    rfl
  case dark =>
    have hhit : (s.drawn x y n).2 = false := by
      rw [← Bool.not_eq_true, s.drawn_hit]
      rintro ⟨i, hi, hlit⟩
      simp [hdark i hi] at hlit
    rw [State.afterDraw, hhit]
    rfl

/-! ### Drawing twice -/

section

variable {s t : State} {x y : Reg} {n : Nibble}

/-- Drawing over the frame just drawn, at the same place, gives the frame before. -/
theorem State.drawn_drawn (hsame : ∀ i, t.spriteLights x y n i ↔ s.spriteLights x y n i)
    (hpx : t.px = (s.drawn x y n).1) : (t.drawn x y n).1 = s.px := by
  refine Frame.ext_pixel fun i => ?_
  by_cases hi : s.spriteLights x y n i.val
  · rw [(t.drawn_pixel x y n i).1 ((hsame i).mpr hi), hpx, (s.drawn_pixel x y n i).1 hi, Bool.not_not]
  · rw [(t.drawn_pixel x y n i).2 (mt (hsame i).mp hi), hpx, (s.drawn_pixel x y n i).2 hi]

/-- It collides where the first drawing lit a cell. -/
theorem State.drawn_drawn_hit (hsame : ∀ i, t.spriteLights x y n i ↔ s.spriteLights x y n i)
    (hpx : t.px = (s.drawn x y n).1) :
    (t.drawn x y n).2 = true ↔ ∃ i : Fin 2048, s.spriteLights x y n i.val ∧ s.px.pixel i = false := by
  rw [t.drawn_hit, hpx]
  refine exists_congr fun i => ?_
  rw [hsame]
  refine and_congr_right fun hi => ?_
  rw [(s.drawn_pixel x y n i).1 hi, Bool.not_eq_true']

end

theorem State.afterDraw_VF (s : State) (x y : Reg) (n : Nibble) :
    (s.afterDraw x y n).V[(15 : Reg)] = flagByte (s.drawn x y n).2 :=
  State.reg_setReg_same s Reg.VF _

theorem flagByte_eq_one {b : Bool} : flagByte b = 1 ↔ b = true := by
  cases b <;> decide

/-- Settles O37: the second draw reads the same sprite at the same place, so it lights the same cells: each is
inverted twice, and one that was dark before is lit when the second draw comes to it. -/
theorem drawingTwiceRestoresTheBuffer : Obligations.DrawingTwiceRestoresTheBuffer := by
  unfold Obligations.DrawingTwiceRestoresTheBuffer
  intro x y n s t u hin ht hx hy hu
  obtain rfl := Host.Outcome.next.inj ((exec_drw_inside x y hin).symm.trans ht)
  obtain rfl := Host.Outcome.next.inj ((exec_drw_inside (s := s.afterDraw x y n) x y hin).symm.trans hu)
  have hsame : ∀ i, (s.afterDraw x y n).spriteLights x y n i ↔ s.spriteLights x y n i := by
    intro i
    rw [State.spriteLights, hx, hy]
    rfl
  refine ⟨State.drawn_drawn hsame rfl, ?_⟩
  rw [State.afterDraw_VF, flagByte_eq_one, State.drawn_drawn_hit hsame rfl]

end Sys2Proof.Machine
end

section
/-!
PROOFS. Keypad skips (R200 to R202), FX0A waiting for a key and taking one (R211), and FX1E (R214).
-/

namespace Sys2Proof.Machine

/-! ### Keypad skips -/

section

variable {x : Reg} {s : State}

/-- The latch read at the register's number is the latch read at the key (R33). -/
theorem key_getElem?_of_reg {k : Key} (h : s.V[x].toNat = k.val) (held : Bool) :
    s.key[(s.reg x).toNat]? = some held ↔ s.key[k] = held := by
  have hk : (s.reg x).toNat = k.val := h
  simp [hk]

theorem exec_skp_of_key {k : Key} (h : s.V[x].toNat = k.val) :
    exec (.skp x) s = .next { s with pc := if s.key[k] = true then s.pc + 2 else s.pc } := by
  have hr : raises (.skp x) s = none := if_neg (by rw [State.reg, h]; omega)
  rw [exec_of_raises_none hr]
  simp only [completed, key_getElem?_of_reg h]

theorem exec_sknp_of_key {k : Key} (h : s.V[x].toNat = k.val) :
    exec (.sknp x) s = .next { s with pc := if s.key[k] = false then s.pc + 2 else s.pc } := by
  have hr : raises (.sknp x) s = none := if_neg (by rw [State.reg, h]; omega)
  rw [exec_of_raises_none hr]
  simp only [completed, key_getElem?_of_reg h]

theorem keyFault_of_gt (h : 15 < s.V[x].toNat) :
    keyFault (s.reg x) = some ⟨.keyIndexOutOfRange, BitVec.ofNat 16 s.V[x].toNat⟩ :=
  (keyFault_eq (s.reg x)).trans (if_pos h)

end

/-- Settles O38: a register that numbers a key raises nothing and reads that key; any other raises. -/
theorem keySkipsTestTheKeyInTheRegister : Obligations.KeySkipsTestTheKeyInTheRegister := by
  unfold Obligations.KeySkipsTestTheKeyInTheRegister
  exact fun x s => ⟨fun k hk => ⟨exec_skp_of_key hk, exec_sknp_of_key hk⟩,
    fun hgt => ⟨exec_of_raises (keyFault_of_gt hgt), exec_of_raises (keyFault_of_gt hgt)⟩⟩

/-! ### FX0A -/

/-- Settles O40: the key scan finds the least held key, or nothing when none is held. -/
theorem waitForKeyStoresTheLowestHeldKey : Obligations.WaitForKeyStoresTheLowestHeldKey := by
  unfold Obligations.WaitForKeyStoresTheLowestHeldKey
  exact fun x s => ⟨fun k hk hlower =>
    exec_ldRegKey_of_lowestHeldKey x (State.lowestHeldKey_eq_some.mpr ⟨hk, hlower⟩), exec_ldRegKey_of_no_key x⟩

/-- With no other key held, the key just pressed is the least held. -/
theorem lowestHeldKey_setKey {s : State} (k : Key) (h : ∀ j : Key, s.key[j] = false) :
    (setKey k true s).lowestHeldKey = some k :=
  State.lowestHeldKey_eq_some.mpr ⟨setKey_same k true s, fun j hj => (setKey_ne true s hj.ne).trans (h j)⟩

/-- Settles O41: with no key held FX0A takes back the advance of `pc` that the fetch made; KEY changes nothing the
fetch reads, so the next cycle runs the same FX0A and finds the key pressed. -/
theorem waitingCycleChangesNothingButIr : Obligations.WaitingCycleChangesNothingButIr := by
  unfold Obligations.WaitingCycleChangesNothingButIr
  intro x s hfault hpc hdecode hnone
  refine ⟨?waits, fun k => ⟨setKey k true s, ?_, rfl, ?taken, ?_, ?_⟩⟩
  case waits =>
    rw [step_of_fetch hfault hpc, hdecode, exec_ldRegKey_of_no_key (s := s.fetched s.fetchWord) x hnone]
    simp [State.jumpTo, State.fetched]
  case taken =>
    have hstep : step (setKey k true s) = exec (decode s.fetchWord) (setKey k true (s.fetched s.fetchWord)) :=
      step_of_fetch (s := setKey k true s) hfault hpc
    rw [hstep, hdecode]
    exact exec_ldRegKey_of_lowestHeldKey x (lowestHeldKey_setKey (s := s.fetched s.fetchWord) k hnone)
  · show (s.pc + 2).toNat = _
    bv_omega
  · have hreg := State.reg_setReg_same (setKey k true (s.fetched s.fetchWord)) x (BitVec.ofNat 8 k.val)
    refine (congrArg BitVec.toNat hreg).trans ?_
    rw [BitVec.toNat_ofNat]
    omega

/-! ### FX1E -/

theorem exec_addI (x : Reg) (s : State) : exec (.addI x) s = .next { s with I := s.I + widen (s.reg x) } := rfl

theorem add_widen_eq_ofNat (a : Word) (b : Byte) :
    a + widen b = BitVec.ofNat 16 ((a.toNat + b.toNat) % 65536) := by
  apply BitVec.eq_of_toNat_eq
  rw [BitVec.toNat_add, widen_toNat, BitVec.toNat_ofNat]
  omega

/-- Settles O42: addition of the register to `I` is addition modulo 65536, and `I` is all that is written. -/
theorem addToIndexWrapsAtSixteenBits : Obligations.AddToIndexWrapsAtSixteenBits := by
  unfold Obligations.AddToIndexWrapsAtSixteenBits
  intro x s
  rw [exec_addI, add_widen_eq_ofNat]
  rfl

end Sys2Proof.Machine
end

section
/-!
PROOFS. The data transfers FX33, FX55 and FX65 inside memory (R216 to R218): the bytes they store or load, their
frame, and `I` afterwards; the round trip of FX55 and FX65, and a store into the word fetched next.
-/

namespace Sys2Proof

theorem decode_ldBcd {w : Word} (h : w &&& 0xF0FF = 0xF033) : decode w = .ldBcd (xField w) := by
  rw [decode_of_timersMemory_row h rfl, decodeTimersMemory, nnField_of_byte_row h]
  rfl

end Sys2Proof

namespace Sys2Proof.Machine

/-! ### FX33 -/

theorem exec_ldBcd_inside {s : State} (x : Reg) (h : s.I.toNat + 2 ≤ 0xFFF) :
    exec (.ldBcd x) s = .next { s with mem := s.mem.writeBlock s.I.toNat (decimalDigits (s.reg x)) } :=
  s.transfer_of_inBounds _ 3 (.inr (by omega))

/-- A digit stored reads back as its number. -/
theorem Memory.read_decimalDigits (m : Memory) (base : Nat) (v : Byte) {k d : Nat} (hd : d < 256)
    (h : (decimalDigits v)[k]? = some (BitVec.ofNat 8 d)) :
    ((m.writeBlock base (decimalDigits v)).read (base + k)).toNat = d := by
  rw [Memory.read_writeBlock_inside _ m base k _ h]
  exact Nat.mod_eq_of_lt hd

/-- Settles O44: inside memory the three digits are stored as one block; outside it the instruction raises. -/
theorem storeDecimalDigits : Obligations.StoreDecimalDigits := by
  unfold Obligations.StoreDecimalDigits
  refine ⟨fun _ => decode_ldBcd, fun x s => ⟨fun hin => ?inside, fun hout => ?outside⟩⟩
  case inside =>
    have hV : s.V[x].toNat < 256 := s.V[x].isLt
    exact ⟨_, exec_ldBcd_inside x hin,
      s.mem.read_decimalDigits s.I.toNat s.V[x] (k := 0) (by omega) rfl,
      s.mem.read_decimalDigits s.I.toNat s.V[x] (k := 1) (by omega) rfl,
      s.mem.read_decimalDigits s.I.toNat s.V[x] (k := 2) (by omega) rfl,
      s.mem.read_writeBlock_of_ne s.I.toNat (decimalDigits s.V[x]), rfl⟩
  case outside => exact exec_of_raises ((transferFault_succ s.I 2).trans (if_pos hout))

/-! ### FX55 and FX65 -/

theorem exec_storeRegs_inside {s : State} {x : Reg} (h : s.I.toNat + x.val ≤ 0xFFF) :
    exec (.storeRegs x) s = .next (s.storeBlock x) :=
  s.transfer_of_inBounds _ (x.val + 1) (.inr (by omega))

theorem exec_loadRegs_inside {s : State} {x : Reg} (h : s.I.toNat + x.val ≤ 0xFFF) :
    exec (.loadRegs x) s = .next (s.loadBlock x) :=
  s.transfer_of_inBounds _ (x.val + 1) (.inr (by omega))

theorem State.read_storeBlock (s : State) {x k : Reg} (h : k ≤ x) :
    (s.storeBlock x).mem.read (s.I.toNat + k.val) = s.V[k] := by
  refine Memory.read_writeBlock_inside _ _ _ _ _ ?_
  rw [State.regsUpTo_getElem?, dif_pos (Fin.le_def.mp h)]
  rfl

theorem State.V_loadBlock (s : State) (x k : Reg) :
    (s.loadBlock x).V[k] = if k ≤ x then s.mem.read (s.I.toNat + k.val) else s.V[k] :=
  s.reg_loadBlock x k

/-- `I` after a block transfer, as R217 and R218 say it. -/
theorem indexAfterBlock_eq (increments : Bool) (base : Word) (x : Reg) : indexAfterBlock increments base x =
    if increments = true then BitVec.ofNat 16 ((base.toNat + x.val + 1) % 65536) else base := by
  unfold indexAfterBlock
  refine if_congr Iff.rfl (BitVec.eq_of_toNat_eq ?_) rfl
  rw [BitVec.toNat_ofNat, BitVec.toNat_ofNat, Nat.mod_mod_of_dvd]
  exact Nat.dvd_refl _

/-- Settles O45: inside memory FX55 leaves `storeBlock`, whose bytes are one block of the registers at `I`. -/
theorem storeBlockWritesRegistersInOrder : Obligations.StoreBlockWritesRegistersInOrder := by
  unfold Obligations.StoreBlockWritesRegistersInOrder
  intro x s hin
  have hframe : ∀ a, (∀ k ≤ x.val, a ≠ effectiveAddress s.I k) →
      (s.storeBlock x).mem.read a = s.mem.read a := fun a ha =>
    completed_read (i := .storeRegs x) (by rintro _ ⟨⟩) (by rintro _ ⟨⟩; exact ha)
  exact ⟨_, exec_storeRegs_inside hin, fun k hk => s.read_storeBlock hk, hframe, indexAfterBlock_eq _ _ _, rfl⟩

/-- Settles O46: inside memory FX65 leaves `loadBlock`, whose registers are given by `V_loadBlock`. -/
theorem loadBlockReadsRegistersInOrder : Obligations.LoadBlockReadsRegistersInOrder := by
  unfold Obligations.LoadBlockReadsRegistersInOrder
  intro x s hin
  exact ⟨_, exec_loadRegs_inside hin, fun k hk => (s.V_loadBlock x k).trans (if_pos hk),
    fun k hk => (s.V_loadBlock x k).trans (if_neg hk.not_ge), indexAfterBlock_eq _ _ _, rfl⟩

/-- A big-endian word by its value (R60). -/
theorem joinBytes_eq_ofNat (hi lo : Byte) : joinBytes hi lo = BitVec.ofNat 16 (hi.toNat * 256 + lo.toNat) := by
  rw [← joinBytes_toNat, BitVec.ofNat_toNat, BitVec.setWidth_eq]

/-- Settles O47: FX65 loads from the `I` that FX55 stored at (`V_loadBlock`, `read_storeBlock`), whatever the
registers are; without the option neither moves `I`. -/
theorem storeThenLoadRestoresRegisters : Obligations.StoreThenLoadRestoresRegisters := by
  unfold Obligations.StoreThenLoadRestoresRegisters
  intro x s t u hin hstore hmem hI
  obtain rfl := Host.Outcome.next.inj ((exec_storeRegs_inside hin).symm.trans hstore)
  refine ⟨_, exec_loadRegs_inside (hI ▸ hin), fun k hk => ?_, fun k hk => ?_, fun h => ?_, fun h => ?_⟩
  · rw [u.V_loadBlock, if_pos hk, hmem, hI, s.read_storeBlock hk]
  · rw [u.V_loadBlock, if_neg hk.not_ge]
  · exact indexAfterBlock_of_false s.I x h
  · exact (indexAfterBlock_of_false u.I x h).trans hI

/-- Settles O48: the word fetched is the two bytes just stored, high byte first; `pc` is where it was and lies
inside memory, so the step executes that word. -/
theorem storedBytesAreFetchedNext : Obligations.StoredBytesAreFetchedNext := by
  unfold Obligations.StoredBytesAreFetchedNext
  intro x k s t hfault hin hstore hk hpc
  obtain rfl := Host.Outcome.next.inj ((exec_storeRegs_inside hin).symm.trans hstore)
  have hword : (s.storeBlock x).fetchWord =
      BitVec.ofNat 16 (s.V[k].toNat * 256 + (s.V[k.val + 1]'(by omega)).toNat) := by
    have hhigh := s.read_storeBlock (show k ≤ x from Fin.le_def.mpr (by omega))
    have hlow := s.read_storeBlock (k := ⟨k.val + 1, by omega⟩) (x := x) (Fin.le_def.mpr hk)
    rw [State.fetchWord, State.storeBlock_pc, hpc, hhigh, Nat.add_assoc, hlow, joinBytes_eq_ofNat]
    rfl
  rw [step_of_fetch (s := s.storeBlock x) hfault (by rw [State.storeBlock_pc]; omega), hword]
  rfl

end Sys2Proof.Machine
end
